-- ==== Sys2Proof/Word.lean ====
section
/-! DEFINITION. The words of the Chip8008 core: cells, register contents, addresses and register numbers.
Every value is an unsigned integer of stated width (spec 00_scope.md R13, R7). -/

namespace Sys2Proof

/-- One 8-bit cell of memory, one V register or one timer (R7: `MEM_SIZE`, `NUM_V`, `TIMER_W`). -/
abbrev Byte := BitVec 8

/-- A 16-bit value: `I`, `pc`, a stack entry, an instruction word (R7: `INDEX_W`, `PC_W`, `INSN_W`). -/
abbrev Word := BitVec 16

/-- A 12-bit address immediate `nnn` (R71). -/
abbrev Addr := BitVec 12

/-- The number of a V register, 0x0 to 0xF (R21, R74). -/
abbrev Reg := Fin 16

/-- The code of a key, 0x0 to 0xF (R30). -/
abbrev Key := Fin 16

end Sys2Proof
end

