-- ==== Sys2Proof/Syntax.lean ====
section
/-! DEFINITION. The instructions of the core: one constructor per row of the opcode table
(spec 30_encoding.md R75, opcode_table.json), 34 in all, in the table's order.
Register operands are register numbers, `nn` and `nnn` are the bits written to or added to registers,
and the row count of `Dxyn` is a count (R73, R74). -/

namespace Sys2Proof

inductive Instr where
  /-- `00E0` (`CLS`), R190. -/
  | cls
  /-- `00EE` (`RET`), R120. -/
  | ret
  /-- `1nnn` (`JP nnn`), R121. -/
  | jp (nnn : Addr)
  /-- `2nnn` (`CALL nnn`), R122. -/
  | call (nnn : Addr)
  /-- `3xnn` (`SE Vx, nn`), R123. -/
  | seImm (x : Reg) (nn : Byte)
  /-- `4xnn` (`SNE Vx, nn`), R124. -/
  | sneImm (x : Reg) (nn : Byte)
  /-- `5xy0` (`SE Vx, Vy`), R125. -/
  | seReg (x y : Reg)
  /-- `6xnn` (`LD Vx, nn`), R141. -/
  | ldImm (x : Reg) (nn : Byte)
  /-- `7xnn` (`ADD Vx, nn`), R142. -/
  | addImm (x : Reg) (nn : Byte)
  /-- `8xy0` (`LD Vx, Vy`), R143. -/
  | ldReg (x y : Reg)
  /-- `8xy1` (`OR Vx, Vy`), R144. -/
  | orReg (x y : Reg)
  /-- `8xy2` (`AND Vx, Vy`), R145. -/
  | andReg (x y : Reg)
  /-- `8xy3` (`XOR Vx, Vy`), R146. -/
  | xorReg (x y : Reg)
  /-- `8xy4` (`ADD Vx, Vy`), R147. -/
  | addReg (x y : Reg)
  /-- `8xy5` (`SUB Vx, Vy`), R148. -/
  | subReg (x y : Reg)
  /-- `8xy6` (`SHR Vx, Vy`), R149. -/
  | shrReg (x y : Reg)
  /-- `8xy7` (`SUBN Vx, Vy`), R150. -/
  | subnReg (x y : Reg)
  /-- `8xyE` (`SHL Vx, Vy`), R151. -/
  | shlReg (x y : Reg)
  /-- `9xy0` (`SNE Vx, Vy`), R126. -/
  | sneReg (x y : Reg)
  /-- `Annn` (`LD I, nnn`), R170. -/
  | ldI (nnn : Addr)
  /-- `Bnnn` (`JP V0, nnn`), R127. -/
  | jpV0 (nnn : Addr)
  /-- `Cxnn` (`RND Vx, nn`), R152. -/
  | rnd (x : Reg) (nn : Byte)
  /-- `Dxyn` (`DRW Vx, Vy, n`), R191. -/
  | drw (x y : Reg) (n : Nat)
  /-- `Ex9E` (`SKP Vx`), R210. -/
  | skp (x : Reg)
  /-- `ExA1` (`SKNP Vx`), R211. -/
  | sknp (x : Reg)
  /-- `Fx07` (`LD Vx, DT`), R212. -/
  | ldVxDt (x : Reg)
  /-- `Fx0A` (`LD Vx, K`), R213. -/
  | ldVxKey (x : Reg)
  /-- `Fx15` (`LD DT, Vx`), R215. -/
  | ldDtVx (x : Reg)
  /-- `Fx18` (`LD ST, Vx`), R216. -/
  | ldStVx (x : Reg)
  /-- `Fx1E` (`ADD I, Vx`), R171. -/
  | addI (x : Reg)
  /-- `Fx29` (`LD F, Vx`), R173. -/
  | ldFont (x : Reg)
  /-- `Fx33` (`LD B, Vx`), R174. -/
  | ldBcd (x : Reg)
  /-- `Fx55` (`LD [I], Vx`), R175. -/
  | storeRegs (x : Reg)
  /-- `Fx65` (`LD Vx, [I]`), R176. -/
  | loadRegs (x : Reg)
  deriving DecidableEq, Repr

end Sys2Proof
end

