-- ==== Sys2Proof/WellFormed.lean ====
section
/-! DEFINITION. Which instruction terms have an encoding.
Register numbers and the immediates `nn` and `nnn` fit their fields by their types.
The row count of `Dxyn` is a count and must fit the 4-bit field `n` (spec 30_encoding.md R73: 0 to 15). -/

namespace Sys2Proof

/-- The instruction's operands fit the fields of its format (R72, R73). -/
def Instr.wellFormed : Instr → Bool
  | .drw _ _ n => decide (n ≤ 15)
  | .cls | .ret | .jp _ | .call _ | .ldI _ | .jpV0 _ => true
  | .seImm _ _ | .sneImm _ _ | .ldImm _ _ | .addImm _ _ | .rnd _ _ => true
  | .seReg _ _ | .sneReg _ _ | .ldReg _ _ | .orReg _ _ | .andReg _ _ | .xorReg _ _ => true
  | .addReg _ _ | .subReg _ _ | .shrReg _ _ | .subnReg _ _ | .shlReg _ _ => true
  | .skp _ | .sknp _ | .ldVxDt _ | .ldVxKey _ | .ldDtVx _ | .ldStVx _ => true
  | .addI _ | .ldFont _ | .ldBcd _ | .storeRegs _ | .loadRegs _ => true

/-- `i` is well-formed, as a proposition. -/
abbrev Instr.WellFormed (i : Instr) : Prop := i.wellFormed = true

end Sys2Proof
end

