-- ==== Sys2Proof/Decode.lean ====
section
/-! DEFINITION. Decoding and encoding (spec 30_encoding.md): the fields of a word (R71), a decoder that is
total on any word and any bytes (R75, R76), the opcode table as masks and values (R75), the encoder, and the assembly spelling (R90). -/

namespace Sys2Proof

/-! ### Fields of a word -/

/-- `w[hi:lo]` as an unsigned number (R13). -/
def field (w : Word) (hi lo : Nat) : Nat := w.toNat / 2 ^ lo % 2 ^ (hi + 1 - lo)

/-- `op = w[15:12]` (R71). -/
def opOf (w : Word) : Nat := field w 15 12

/-- `x = w[11:8]`, a register number (R71). -/
def xOf (w : Word) : Reg := Fin.ofNat 16 (field w 11 8)

/-- `y = w[7:4]`, a register number (R71). -/
def yOf (w : Word) : Reg := Fin.ofNat 16 (field w 7 4)

/-- `n = w[3:0]` (R71). -/
def nOf (w : Word) : Nat := field w 3 0

/-- `nn = w[7:0]`, an 8-bit immediate (R71). -/
def nnOf (w : Word) : Byte := BitVec.ofNat 8 (field w 7 0)

/-- `nnn = w[11:0]`, a 12-bit address (R71). -/
def nnnOf (w : Word) : Addr := BitVec.ofNat 12 (field w 11 0)

/-! ### Decoding -/

/-- Family 0x0: `00E0` and `00EE`, every other word is illegal (R75, R76). -/
def decodeFixed (w : Word) : Option Instr :=
  if field w 11 0 = 0x0E0 then some .cls
  else if field w 11 0 = 0x0EE then some .ret
  else none

/-- Family 0x8, by its low nibble (R75). -/
def decodeAlu (w : Word) : Option Instr :=
  match nOf w with
  | 0x0 => some (.ldReg (xOf w) (yOf w))
  | 0x1 => some (.orReg (xOf w) (yOf w))
  | 0x2 => some (.andReg (xOf w) (yOf w))
  | 0x3 => some (.xorReg (xOf w) (yOf w))
  | 0x4 => some (.addReg (xOf w) (yOf w))
  | 0x5 => some (.subReg (xOf w) (yOf w))
  | 0x6 => some (.shrReg (xOf w) (yOf w))
  | 0x7 => some (.subnReg (xOf w) (yOf w))
  | 0xE => some (.shlReg (xOf w) (yOf w))
  | _ => none

/-- Family 0xE, by its low byte (R75). -/
def decodeKey (w : Word) : Option Instr :=
  if field w 7 0 = 0x9E then some (.skp (xOf w))
  else if field w 7 0 = 0xA1 then some (.sknp (xOf w))
  else none

/-- Family 0xF, by its low byte (R75). -/
def decodeMisc (w : Word) : Option Instr :=
  if field w 7 0 = 0x07 then some (.ldVxDt (xOf w))
  else if field w 7 0 = 0x0A then some (.ldVxKey (xOf w))
  else if field w 7 0 = 0x15 then some (.ldDtVx (xOf w))
  else if field w 7 0 = 0x18 then some (.ldStVx (xOf w))
  else if field w 7 0 = 0x1E then some (.addI (xOf w))
  else if field w 7 0 = 0x29 then some (.ldFont (xOf w))
  else if field w 7 0 = 0x33 then some (.ldBcd (xOf w))
  else if field w 7 0 = 0x55 then some (.storeRegs (xOf w))
  else if field w 7 0 = 0x65 then some (.loadRegs (xOf w))
  else none

/-- `decode(w)` (R75): one of the 34 instructions, or `none` for `UnknownOpcode(w)` (R76). Families 0x5
and 0x9 check their low nibble; decoding depends on the word alone (R78). -/
def decode (w : Word) : Option Instr :=
  match opOf w with
  | 0x0 => decodeFixed w
  | 0x1 => some (.jp (nnnOf w))
  | 0x2 => some (.call (nnnOf w))
  | 0x3 => some (.seImm (xOf w) (nnOf w))
  | 0x4 => some (.sneImm (xOf w) (nnOf w))
  | 0x5 => if nOf w = 0 then some (.seReg (xOf w) (yOf w)) else none
  | 0x6 => some (.ldImm (xOf w) (nnOf w))
  | 0x7 => some (.addImm (xOf w) (nnOf w))
  | 0x8 => decodeAlu w
  | 0x9 => if nOf w = 0 then some (.sneReg (xOf w) (yOf w)) else none
  | 0xA => some (.ldI (nnnOf w))
  | 0xB => some (.jpV0 (nnnOf w))
  | 0xC => some (.rnd (xOf w) (nnOf w))
  | 0xD => some (.drw (xOf w) (yOf w) (nOf w))
  | 0xE => decodeKey w
  | 0xF => decodeMisc w
  | _ => none

/-! ### Words and bytes -/

/-- `(hi << 8) | lo`, the word of two consecutive cells (R55, R70: big-endian). -/
def joinBytes (hi lo : Byte) : Word := BitVec.ofNat 16 (hi.toNat * 256 + lo.toNat)

/-- The cell at `pc` of a word (R55). -/
def highByte (w : Word) : Byte := BitVec.ofNat 8 (w.toNat / 256)

/-- The cell at `pc + 1` of a word (R55). -/
def lowByte (w : Word) : Byte := BitVec.ofNat 8 w.toNat

/-- The word at the head of a byte sequence and the bytes after it: always 2 bytes (R70). -/
def wordOfBytes : List Byte → Option (Word × List Byte)
  | hi :: lo :: rest => some (joinBytes hi lo, rest)
  | _ => none

/-- Decode the instruction at the head of a byte sequence; the rest of the sequence is answered with it. -/
def decodeBytes (bytes : List Byte) : Option (Instr × List Byte) :=
  match wordOfBytes bytes with
  | some (w, rest) => (decode w).map fun i => (i, rest)
  | none => none

/-- The word whose low `nbits` bits are those of `w`, numbered as the opcode table numbers them; the bits
above are 0. Every instruction is one 16-bit word (R70). -/
def tableWord (nbits w : Nat) : Word := BitVec.ofNat 16 (w % 2 ^ nbits)

/-- The two cells that hold a word, in the order of their addresses (R55). -/
def bytesOfWord (w : Word) : List Byte := [highByte w, lowByte w]

/-- What the decoder reads from an instruction whose bits are `w`. -/
def decodeTableWord (nbits w : Nat) : Option Instr :=
  (decodeBytes (bytesOfWord (tableWord nbits w))).map Prod.fst

/-! ### Encoding -/

/-- Format `NNN` (R72). -/
def packNNN (op : Nat) (nnn : Addr) : Word := BitVec.ofNat 16 (op * 0x1000 + nnn.toNat)

/-- Format `XNN` (R72), and format `XS` with its fixed low byte. -/
def packXNN (op : Nat) (x : Reg) (nn : Nat) : Word := BitVec.ofNat 16 (op * 0x1000 + x.val * 0x100 + nn)

/-- Format `XYN` (R72), and formats `XY0` and `XYS` with their fixed low nibble. -/
def packXYN (op : Nat) (x y : Reg) (n : Nat) : Word :=
  BitVec.ofNat 16 (op * 0x1000 + x.val * 0x100 + y.val * 0x10 + n)

/-- The word of a well-formed instruction (R72, R75). -/
def encode : Instr → Word
  | .cls => 0x00E0
  | .ret => 0x00EE
  | .jp nnn => packNNN 0x1 nnn
  | .call nnn => packNNN 0x2 nnn
  | .seImm x nn => packXNN 0x3 x nn.toNat
  | .sneImm x nn => packXNN 0x4 x nn.toNat
  | .seReg x y => packXYN 0x5 x y 0x0
  | .ldImm x nn => packXNN 0x6 x nn.toNat
  | .addImm x nn => packXNN 0x7 x nn.toNat
  | .ldReg x y => packXYN 0x8 x y 0x0
  | .orReg x y => packXYN 0x8 x y 0x1
  | .andReg x y => packXYN 0x8 x y 0x2
  | .xorReg x y => packXYN 0x8 x y 0x3
  | .addReg x y => packXYN 0x8 x y 0x4
  | .subReg x y => packXYN 0x8 x y 0x5
  | .shrReg x y => packXYN 0x8 x y 0x6
  | .subnReg x y => packXYN 0x8 x y 0x7
  | .shlReg x y => packXYN 0x8 x y 0xE
  | .sneReg x y => packXYN 0x9 x y 0x0
  | .ldI nnn => packNNN 0xA nnn
  | .jpV0 nnn => packNNN 0xB nnn
  | .rnd x nn => packXNN 0xC x nn.toNat
  | .drw x y n => packXYN 0xD x y n
  | .skp x => packXNN 0xE x 0x9E
  | .sknp x => packXNN 0xE x 0xA1
  | .ldVxDt x => packXNN 0xF x 0x07
  | .ldVxKey x => packXNN 0xF x 0x0A
  | .ldDtVx x => packXNN 0xF x 0x15
  | .ldStVx x => packXNN 0xF x 0x18
  | .addI x => packXNN 0xF x 0x1E
  | .ldFont x => packXNN 0xF x 0x29
  | .ldBcd x => packXNN 0xF x 0x33
  | .storeRegs x => packXNN 0xF x 0x55
  | .loadRegs x => packXNN 0xF x 0x65

/-- The two cells of an instruction. -/
def encodeBytes (i : Instr) : List Byte := bytesOfWord (encode i)

/-! ### The opcode table -/

/-- The formats of R72. -/
inductive Format where
  | fixed | nnn | xnn | xy0 | xys | xyn | xs
  deriving DecidableEq, Repr

/-- A row of the opcode table (R75): a word `w` is the row's when `w &&& mask = value`. The pattern, the
mnemonic and the operand spelling of R90 name the row and have no effect on the machine. -/
structure OpcodeRow where
  pattern : String
  mnemonic : String
  operands : String
  format : Format
  mask : Word
  value : Word
  deriving DecidableEq, Repr

/-- The row of each instruction (R75, R90). -/
def rowOf : Instr → OpcodeRow
  | .cls => ⟨"00E0", "CLS", "", .fixed, 0xFFFF, 0x00E0⟩
  | .ret => ⟨"00EE", "RET", "", .fixed, 0xFFFF, 0x00EE⟩
  | .jp _ => ⟨"1nnn", "JP", "nnn", .nnn, 0xF000, 0x1000⟩
  | .call _ => ⟨"2nnn", "CALL", "nnn", .nnn, 0xF000, 0x2000⟩
  | .seImm _ _ => ⟨"3xnn", "SE", "Vx, nn", .xnn, 0xF000, 0x3000⟩
  | .sneImm _ _ => ⟨"4xnn", "SNE", "Vx, nn", .xnn, 0xF000, 0x4000⟩
  | .seReg _ _ => ⟨"5xy0", "SE", "Vx, Vy", .xy0, 0xF00F, 0x5000⟩
  | .ldImm _ _ => ⟨"6xnn", "LD", "Vx, nn", .xnn, 0xF000, 0x6000⟩
  | .addImm _ _ => ⟨"7xnn", "ADD", "Vx, nn", .xnn, 0xF000, 0x7000⟩
  | .ldReg _ _ => ⟨"8xy0", "LD", "Vx, Vy", .xys, 0xF00F, 0x8000⟩
  | .orReg _ _ => ⟨"8xy1", "OR", "Vx, Vy", .xys, 0xF00F, 0x8001⟩
  | .andReg _ _ => ⟨"8xy2", "AND", "Vx, Vy", .xys, 0xF00F, 0x8002⟩
  | .xorReg _ _ => ⟨"8xy3", "XOR", "Vx, Vy", .xys, 0xF00F, 0x8003⟩
  | .addReg _ _ => ⟨"8xy4", "ADD", "Vx, Vy", .xys, 0xF00F, 0x8004⟩
  | .subReg _ _ => ⟨"8xy5", "SUB", "Vx, Vy", .xys, 0xF00F, 0x8005⟩
  | .shrReg _ _ => ⟨"8xy6", "SHR", "Vx, Vy", .xys, 0xF00F, 0x8006⟩
  | .subnReg _ _ => ⟨"8xy7", "SUBN", "Vx, Vy", .xys, 0xF00F, 0x8007⟩
  | .shlReg _ _ => ⟨"8xyE", "SHL", "Vx, Vy", .xys, 0xF00F, 0x800E⟩
  | .sneReg _ _ => ⟨"9xy0", "SNE", "Vx, Vy", .xy0, 0xF00F, 0x9000⟩
  | .ldI _ => ⟨"Annn", "LD", "I, nnn", .nnn, 0xF000, 0xA000⟩
  | .jpV0 _ => ⟨"Bnnn", "JP", "V0, nnn", .nnn, 0xF000, 0xB000⟩
  | .rnd _ _ => ⟨"Cxnn", "RND", "Vx, nn", .xnn, 0xF000, 0xC000⟩
  | .drw _ _ _ => ⟨"Dxyn", "DRW", "Vx, Vy, n", .xyn, 0xF000, 0xD000⟩
  | .skp _ => ⟨"Ex9E", "SKP", "Vx", .xs, 0xF0FF, 0xE09E⟩
  | .sknp _ => ⟨"ExA1", "SKNP", "Vx", .xs, 0xF0FF, 0xE0A1⟩
  | .ldVxDt _ => ⟨"Fx07", "LD", "Vx, DT", .xs, 0xF0FF, 0xF007⟩
  | .ldVxKey _ => ⟨"Fx0A", "LD", "Vx, K", .xs, 0xF0FF, 0xF00A⟩
  | .ldDtVx _ => ⟨"Fx15", "LD", "DT, Vx", .xs, 0xF0FF, 0xF015⟩
  | .ldStVx _ => ⟨"Fx18", "LD", "ST, Vx", .xs, 0xF0FF, 0xF018⟩
  | .addI _ => ⟨"Fx1E", "ADD", "I, Vx", .xs, 0xF0FF, 0xF01E⟩
  | .ldFont _ => ⟨"Fx29", "LD", "F, Vx", .xs, 0xF0FF, 0xF029⟩
  | .ldBcd _ => ⟨"Fx33", "LD", "B, Vx", .xs, 0xF0FF, 0xF033⟩
  | .storeRegs _ => ⟨"Fx55", "LD", "[I], Vx", .xs, 0xF0FF, 0xF055⟩
  | .loadRegs _ => ⟨"Fx65", "LD", "Vx, [I]", .xs, 0xF0FF, 0xF065⟩

/-- One instruction of each row, in the table's order. -/
def rowSamples : List Instr :=
  [.cls, .ret, .jp 0, .call 0, .seImm 0 0, .sneImm 0 0, .seReg 0 0, .ldImm 0 0, .addImm 0 0,
   .ldReg 0 0, .orReg 0 0, .andReg 0 0, .xorReg 0 0, .addReg 0 0, .subReg 0 0, .shrReg 0 0,
   .subnReg 0 0, .shlReg 0 0] ++
  [.sneReg 0 0, .ldI 0, .jpV0 0, .rnd 0 0, .drw 0 0 0, .skp 0, .sknp 0, .ldVxDt 0, .ldVxKey 0,
   .ldDtVx 0, .ldStVx 0, .addI 0, .ldFont 0, .ldBcd 0, .storeRegs 0, .loadRegs 0]

/-- The opcode table of R75: 34 rows. -/
def opcodeTable : List OpcodeRow := rowSamples.map rowOf

/-- `w` is a word of the row: `w & mask == match` (R75). -/
def OpcodeRow.covers (row : OpcodeRow) (w : Word) : Bool := w &&& row.mask == row.value

/-! ### Assembly spelling (R90; notation only, log entry 24) -/

/-- A hexadecimal digit. -/
def hexDigit (k : Fin 16) : Char :=
  ['0', '1', '2', '3', '4', '5', '6', '7', '8', '9', 'A', 'B', 'C', 'D', 'E', 'F'][k.val]

/-- `V0` to `VF`. -/
def regText (x : Reg) : String := String.ofList ['V', hexDigit x]

/-- A byte as `0x` and two digits. -/
def byteText (nn : Byte) : String :=
  "0x" ++ String.ofList [hexDigit (Fin.ofNat 16 (nn.toNat / 16)), hexDigit (Fin.ofNat 16 nn.toNat)]

/-- A 12-bit address as `0x` and three digits. -/
def addrText (nnn : Addr) : String :=
  "0x" ++ String.ofList [hexDigit (Fin.ofNat 16 (nnn.toNat / 256)),
    hexDigit (Fin.ofNat 16 (nnn.toNat / 16)), hexDigit (Fin.ofNat 16 nnn.toNat)]

/-- The operands as the spec spells them; the row count of `Dxyn` is written as in 95_test_vectors.md. -/
def operandTexts : Instr → List String
  | .cls | .ret => []
  | .jp nnn | .call nnn => [addrText nnn]
  | .seImm x nn | .sneImm x nn | .ldImm x nn | .addImm x nn | .rnd x nn => [regText x, byteText nn]
  | .seReg x y | .sneReg x y | .ldReg x y | .orReg x y | .andReg x y => [regText x, regText y]
  | .xorReg x y | .addReg x y | .subReg x y | .shrReg x y => [regText x, regText y]
  | .subnReg x y | .shlReg x y => [regText x, regText y]
  | .ldI nnn => ["I", addrText nnn]
  | .jpV0 nnn => ["V0", addrText nnn]
  | .drw x y n => [regText x, regText y, toString n]
  | .skp x | .sknp x => [regText x]
  | .ldVxDt x => [regText x, "DT"]
  | .ldVxKey x => [regText x, "K"]
  | .ldDtVx x => ["DT", regText x]
  | .ldStVx x => ["ST", regText x]
  | .addI x => ["I", regText x]
  | .ldFont x => ["F", regText x]
  | .ldBcd x => ["B", regText x]
  | .storeRegs x => ["[I]", regText x]
  | .loadRegs x => [regText x, "[I]"]

/-- The assembly line of an instruction. -/
def assembly (i : Instr) : String :=
  match operandTexts i with
  | [] => (rowOf i).mnemonic
  | ops => (rowOf i).mnemonic ++ " " ++ String.intercalate ", " ops

end Sys2Proof
end

