-- ==== Sys2Proof/Config.lean ====
section
/-! DEFINITION. What an implementation of the core fixes: the base addresses and the ROM limit of spec
00_scope.md R7 (the other sizes of R7 are widths of the state's types), the named parameters of R9
(`SHIFT_SOURCE`, `FX1E_VF_OVERFLOW`, `FONT`) as a record of plain data, and the free bytes of the external
entropy source (R255). `INSN_HZ` is timing only and no rule depends on it (R9, R290), so nothing here holds
it (log entry 10). -/

namespace Sys2Proof

/-- `FONT_BASE`: address of glyph 0 (R7). -/
def Config.fontBase : Nat := 0

/-- `PROG_BASE`: where programs are loaded and execution starts (R7, R40). -/
def Config.progBase : Nat := 0x200

/-- `MAX_ROM`: the longest ROM the loader takes (R7). -/
def Config.maxRom : Nat := 3584

/-- `SHIFT_SOURCE`: the register that `8xy6` and `8xyE` shift (R10). -/
inductive ShiftSource where
  | vy
  | vx
  deriving DecidableEq, Repr

/-- `FX1E_VF_OVERFLOW`: whether `Fx1E` writes VF (R11). -/
inductive IndexOverflowQuirk where
  | off
  | on
  deriving DecidableEq, Repr

/-- The parameters of R9 that rules depend on, fixed for a run and written by no instruction (R36).
A state carries them (log entry 1), so a claim about every state holds for every product. -/
structure Params where
  /-- `SHIFT_SOURCE`. -/
  shiftSource : ShiftSource
  /-- `FX1E_VF_OVERFLOW`. -/
  indexOverflow : IndexOverflowQuirk
  /-- `FONT`: the bytes that reset places at 0x000 to 0x04F, glyph k at 5k (R12). -/
  font : Vector Byte 80
  deriving DecidableEq, Repr

/-- The entropy source's answer number `n` (counted from 0): any byte, under no law (R255; log entry 2).
No proof can learn its value, so a claim that names it holds for every sequence of answers. -/
opaque Config.freeByte : Nat → Byte

end Sys2Proof
end

