-- ==== Sys2Proof/Machine/Parameters.lean ====
section
/-! DEFINITION. The default parameter values the spec names: `SHIFT_SOURCE = VY` (R10),
`FX1E_VF_OVERFLOW = OFF` (R11) and the conventional `FONT` of spec 10_state.md R44 (from general
knowledge, not in the source; log entry 3). -/

namespace Sys2Proof.Machine

/-- The default `FONT`, glyphs 0 to 7 (R44). -/
def fontLow : List Byte :=
  [0xF0, 0x90, 0x90, 0x90, 0xF0,
   0x20, 0x60, 0x20, 0x20, 0x70,
   0xF0, 0x10, 0xF0, 0x80, 0xF0,
   0xF0, 0x10, 0xF0, 0x10, 0xF0,
   0x90, 0x90, 0xF0, 0x10, 0x10,
   0xF0, 0x80, 0xF0, 0x10, 0xF0,
   0xF0, 0x80, 0xF0, 0x90, 0xF0,
   0xF0, 0x10, 0x20, 0x40, 0x40]

/-- The default `FONT`, glyphs 8 to F (R44). -/
def fontHigh : List Byte :=
  [0xF0, 0x90, 0xF0, 0x90, 0xF0,
   0xF0, 0x90, 0xF0, 0x10, 0xF0,
   0xF0, 0x90, 0xF0, 0x90, 0x90,
   0xE0, 0x90, 0xE0, 0x90, 0xE0,
   0xF0, 0x80, 0x80, 0x80, 0xF0,
   0xE0, 0x90, 0x90, 0x90, 0xE0,
   0xF0, 0x80, 0xF0, 0x80, 0xF0,
   0xF0, 0x80, 0xF0, 0x80, 0x80]

/-- The default `FONT`, 80 bytes (R44). -/
def defaultFont : Vector Byte 80 := ⟨(fontLow ++ fontHigh).toArray, rfl⟩

/-- The spec's default parameter values (R10, R11, R12). -/
def defaultParams : Params :=
  { shiftSource := .vy, indexOverflow := .off, font := defaultFont }

end Sys2Proof.Machine
end

