-- ==== Sys2Proof/Machine/State.lean ====
section
/-! DEFINITION. The Machine State of the spec (10_state.md R20) is `MachineState`: `mem`, `V`, `I`, `pc`, `S`,
`sp`, `DT`, `ST`, `FB`, `K`, `redraw` and `run`, and no others. What a step takes is `State`: that record
together with the two arguments that the spec gives the model (00_scope.md R9), the parameters and the
entropy source (log entries 1 and 2). Plain data throughout. -/

namespace Sys2Proof.Machine

/-- The errors a step can raise, with their payloads (R230, codes 1 to 5). `RomTooLarge`, code 6, is
raised by the ROM loader and never by a step: see `Fault`. -/
inductive Error where
  /-- An access above 4095: `pc0` for a fetch, the first accessed address above 4095 for data (R177). -/
  | addressOutOfRange (address : Nat)
  /-- `2nnn` with `sp = 16` (R122). -/
  | stackOverflow
  /-- `00EE` with `sp = 0` (R120). -/
  | stackUnderflow
  /-- A word that matches no row of the opcode table, with the word (R76, R102). -/
  | unknownOpcode (word : Word)
  /-- `Ex9E` or `ExA1` with a key code above 0xF, with the code (R210, R211). -/
  | keyOutOfRange (code : Byte)
  deriving DecidableEq, Repr

/-- The engine run state `run` (R32). -/
inductive RunState where
  /-- `step` fetches and executes. -/
  | running
  /-- `Fx0A` has executed: the engine waits for a key-down edge and will write its code to `V[x]`. -/
  | waiting (x : Reg)
  /-- A step raised this error and the instruction clock is stopped. -/
  | halted (e : Error)
  deriving DecidableEq, Repr

/-- The 4096 cells of memory (R33), as the cells that differ from their reset contents: addresses
strictly rising, no cell equal to what an unlisted address reads as (`unlistedByte`). -/
abbrev Memory := List Host.Cell

/-- The 64×32 cells of `FB` (R29), row by row: cell (x, y) is element `x` of row `y`, `true` is 1. -/
abbrev Framebuffer := Vector (Vector Bool 64) 32

/-- The entropy source as the machine sees it (R9, R255; log entry 2): the answers still to come of a
sequence that was substituted for it (none unless a claim or a test names one), and how many answers it
has given. Past the substituted sequence the answers are the free bytes `Config.freeByte`. -/
structure Entropy where
  fixed : List Byte
  drawn : Nat
  deriving DecidableEq, Repr

/-- The Machine State: the twelve components of R20 and no others. -/
structure MachineState where
  /-- `mem`, R33. -/
  mem : Memory
  /-- `V[0..15]`, R21. -/
  v : Vector Byte 16
  /-- `I`, R23. -/
  i : Word
  /-- `pc`, R24. -/
  pc : Word
  /-- `S[0..15]`, R25. -/
  stack : Vector Word 16
  /-- `sp`, 0 to 16, R26. -/
  sp : Fin 17
  /-- `DT`, R27. -/
  dt : Byte
  /-- `ST`, R28. -/
  st : Byte
  /-- `FB`, R29. -/
  fb : Framebuffer
  /-- `K[0..15]`, `true` is down, R30. -/
  keys : Vector Bool 16
  /-- `redraw`, R31. -/
  redraw : Bool
  /-- `run`, R32. -/
  run : RunState
  deriving DecidableEq, Repr

/-- What `step` and `exec` take and answer: the Machine State of R20 (`toMachineState`) and the arguments that
R9 gives the model, which are no part of the Machine State and stand beside it (log entries 1 and 2). -/
structure State extends MachineState where
  /-- The parameters, an argument of the model (R9), fixed for a run (R36; log entry 1). -/
  params : Params
  /-- The entropy source, an argument of the model (R9, R255; log entry 2). -/
  entropy : Entropy
  deriving DecidableEq, Repr

/-- Why the machine stops with a fault. No step does: an error of R230 codes 1 to 5 is taken as
`run <- Halted(e)`, a next state (R233). -/
inductive Fault where
  /-- `RomTooLarge` (R230 code 6, R273): raised by the ROM loader alone (`Action.load`), for a ROM of
  more than 3584 bytes. Nothing was written. Safe: the spec names this failure and its condition. -/
  | romTooLarge
  deriving DecidableEq, Repr

/-- Why the model has no move. Every one but the first is a host action that the spec says is not
enabled in that state; no instruction is refused. -/
inductive Refusal where
  /-- An instruction without a meaning in this model. No arm of `exec` raises it: every instruction
  has its meaning. Safe. -/
  | notModelled (mnemonic : String)
  /-- `Action.load` in a session that is not freshly reset: after its first step, or after an earlier load
  with no reset between (R274, R41: the model gives it no move). Safe. -/
  | loadOutsideBoot
  /-- `Action.keyDown k` while key `k` is already down: no edge (R214, R252). Safe. -/
  | keyAlreadyDown (k : Key)
  /-- `Action.keyUp k` while key `k` is already up (R252). Safe. -/
  | keyAlreadyUp (k : Key)
  /-- `Action.consume` while `redraw` is false (R251). Safe. -/
  | nothingToRedraw
  deriving DecidableEq, Repr

/-- What an action or an instruction answers. -/
abbrev Result := Host.Outcome State Fault Refusal

/-- The state a reset leaves, for given parameters and a given entropy source (R39, R270). Memory lists
nothing: an unlisted cell reads as its reset contents, the font at 0x000 to 0x04F and 0 elsewhere.
The values of R39 but for `pc` and the font area are the spec's own choice (R42; log entry 4). -/
def State.resetWith (p : Params) (e : Entropy) : State where
  mem := []
  v := Vector.replicate 16 0
  i := 0
  pc := 0x200
  stack := Vector.replicate 16 0
  sp := 0
  dt := 0
  st := 0
  fb := Vector.replicate 32 (Vector.replicate 64 false)
  keys := Vector.replicate 16 false
  redraw := false
  run := .running
  params := p
  entropy := e

/-- The machine right after its first reset (R39, R270), with the spec's default parameters and an
entropy source of which nothing is known. -/
def State.reset : State := State.resetWith defaultParams { fixed := [], drawn := 0 }

end Sys2Proof.Machine
end

