-- ==== Sys2Proof/Machine/Ops.lean ====
section
/-! DEFINITION. The named operations over memory, registers, the stack and the framebuffer, setting `pc`
(spec 40_engine.md R104), and raising an error (60_exceptions.md R233), which is all that this core has
of taking an exception: there is no handler and no return from one (R239). -/

namespace Sys2Proof.Machine

/-! ### Memory (20_memory.md) -/

/-- What an unlisted cell reads as: its reset contents, the font at 0x000 to 0x04F and 0 elsewhere (R39, R52). -/
def unlistedByte (font : Vector Byte 80) (a : Nat) : Byte := if h : a < 80 then font[a] else 0

/-- The listed byte at `a`, or `d`. -/
def Memory.lookup (d : Byte) (a : Nat) : Memory → Byte
  | [] => d
  | (b, w) :: rest => if b = a then w else Memory.lookup d a rest

/-- The memory with byte `u` at `a`, where `d` is what `a` reads as unlisted: writing `d` removes the cell
from the list, so equal memories are equal lists. -/
def Memory.store (d : Byte) (a : Nat) (u : Byte) : Memory → Memory
  | [] => if u = d then [] else [(a, u)]
  | (b, w) :: rest =>
    if b < a then (b, w) :: Memory.store d a u rest
    else if b = a then (if u = d then rest else (a, u) :: rest)
    else if u = d then (b, w) :: rest else (a, u) :: (b, w) :: rest

/-- The canonical form from address `lo` on: addresses strictly rising and below 4096, no cell equal to
what it reads as unlisted. -/
def Memory.wfFrom (font : Vector Byte 80) : Nat → Memory → Bool
  | _, [] => true
  | lo, (b, w) :: rest =>
    decide (lo ≤ b) && decide (b < 4096) && decide (w ≠ unlistedByte font b)
      && Memory.wfFrom font (b + 1) rest

/-- The canonical form of a memory. -/
def Memory.wf (font : Vector Byte 80) (m : Memory) : Bool := Memory.wfFrom font 0 m

/-- `MemRead(a, 1)` (R14). Callers check `a ≤ 4095` first (R53). -/
def State.readByte (s : State) (a : Nat) : Byte :=
  Memory.lookup (unlistedByte s.params.font a) a s.mem

/-- `MemWrite(a, 1, u)` (R14). Callers check `a ≤ 4095` first (R53). -/
def State.writeByte (s : State) (a : Nat) (u : Byte) : State :=
  { s with mem := Memory.store (unlistedByte s.params.font a) a u s.mem }

/-- `MemWrite` of a sequence of bytes to consecutive cells from `a` on, lowest address first. -/
def State.writeBytes (s : State) (a : Nat) : List Byte → State
  | [] => s
  | u :: us => (s.writeByte a u).writeBytes (a + 1) us

/-- `MemRead` of `n` consecutive cells from `a` on, lowest address first. -/
def State.readBytes (s : State) (a : Nat) : Nat → List Byte
  | 0 => []
  | n + 1 => s.readByte a :: s.readBytes (a + 1) n

/-- The state's memory is in canonical form. -/
def State.memWf (s : State) : Bool := Memory.wf s.params.font s.mem

/-! ### Registers (10_state.md) -/

/-- `V[x]` (R21). -/
def State.getV (s : State) (x : Reg) : Byte := s.v[x.val]

/-- `V[x] <- u` (R21). -/
def State.setV (s : State) (x : Reg) (u : Byte) : State := { s with v := s.v.set x.val u }

/-- `V[0xF] <- u`, the flag, written last (R22). -/
def State.setVF (s : State) (u : Byte) : State := s.setV 15 u

/-- `I <- a` (R23). -/
def State.setI (s : State) (a : Word) : State := { s with i := a }

/-- `DT <- u` (R27). -/
def State.setDT (s : State) (u : Byte) : State := { s with dt := u }

/-- `ST <- u` (R28). -/
def State.setST (s : State) (u : Byte) : State := { s with st := u }

/-- `K[k]` (R30). -/
def State.keyDown (s : State) (k : Key) : Bool := s.keys[k.val]

/-- `K[k] <- b` (R30), by the host only. -/
def State.setKey (s : State) (k : Key) (b : Bool) : State := { s with keys := s.keys.set k.val b }

/-- `run <- r` (R32). -/
def State.setRun (s : State) (r : RunState) : State := { s with run := r }

/-- The audio output `sound_active = (ST > 0)`, no stored state (R38, R243). -/
def State.soundActive (s : State) : Bool := decide (0 < s.st.toNat)

/-- `V[0] .. V[n-1] <- us`, register by register from V0 on (R176). -/
def State.setVs (s : State) (r : Nat) : List Byte → State
  | [] => s
  | u :: us => (s.setV (Fin.ofNat 16 r) u).setVs (r + 1) us

/-- `V[r] .. V[r+n-1]` as a list (R175). -/
def State.getVs (s : State) (r : Nat) : Nat → List Byte
  | 0 => []
  | n + 1 => s.getV (Fin.ofNat 16 r) :: s.getVs (r + 1) n

/-! ### Setting `pc` (40_engine.md R104) -/

/-- The pc outcome a handler returns (R103). -/
inductive PcOutcome where
  | next
  | skip
  | jump (target : Word)
  deriving DecidableEq, Repr

/-- `pc_of(outcome, pc0, next)`: `pc0 + 2`, `pc0 + 4` or the target (R104). Fetch fails above 4094 (R101), so
no sum reaches 16 bits in a step (log entry 5). -/
def pcAfter (pc0 : Word) : PcOutcome → Word
  | .next => pc0 + 2
  | .skip => pc0 + 4
  | .jump target => target

/-- End of a handler: `pc` by its outcome (R104). No handler writes `pc` before, so `s.pc` is `pc0`. -/
def State.finish (s : State) (o : PcOutcome) : State := { s with pc := pcAfter s.pc o }

/-- The outcome of a conditional instruction (R105). -/
def skipIf (c : Bool) : PcOutcome := if c then .skip else .next

/-! ### Raising an error (60_exceptions.md R232, R233) -/

/-- `raise E(info)`: exactly `run <- Halted(E(info))`; nothing else changes, `pc` still is `pc0`. -/
def State.raise (s : State) (e : Error) : State := s.setRun (.halted e)

/-! ### The call stack (41_control_flow.md) -/

/-- `S[sp] <- a; sp <- sp + 1`, or `none` when `sp == 16` (R122). -/
def State.push (s : State) (a : Word) : Option State :=
  if h : s.sp.val < 16 then
    some { s with stack := s.stack.set s.sp.val a, sp := ⟨s.sp.val + 1, by omega⟩ }
  else none

/-- `sp <- sp - 1`, with `S[sp]` read at the new `sp` and not cleared, or `none` when `sp == 0` (R120). -/
def State.pop (s : State) : Option (Word × State) :=
  if h : 0 < s.sp.val then
    some (s.stack[s.sp.val - 1]'(by omega), { s with sp := ⟨s.sp.val - 1, by omega⟩ })
  else none

/-! ### The framebuffer (44_display.md) -/

/-- `FB[x mod 64][y mod 32]` (R29, R193). -/
def Framebuffer.cell (fb : Framebuffer) (x y : Nat) : Bool := fb[y % 32][x % 64]

/-- `FB[x mod 64][y mod 32] <- FB[x mod 64][y mod 32] ^ 1`. -/
def Framebuffer.flip (fb : Framebuffer) (x y : Nat) : Framebuffer :=
  fb.set (y % 32) (fb[y % 32].set (x % 64) (!fb.cell x y))

/-- Every cell 0 (R190). -/
def clearFramebuffer : Framebuffer := Vector.replicate 32 (Vector.replicate 64 false)

/-- Sprite bit `c` of a row, bit 7 the leftmost (R192; log entry 6). -/
def spriteBit (row : Byte) (c : Nat) : Bool := decide (row.toNat / 2 ^ (7 - c) % 2 = 1)

/-- One pixel of `Dxyn`: where the sprite bit is 1, note a collision if the cell is 1 and flip it (R191). -/
def drawBit (px py : Nat) (bit : Bool) (p : Framebuffer × Bool) : Framebuffer × Bool :=
  if bit then (p.1.flip px py, p.2 || p.1.cell px py) else p

/-- The pixels `c .. 7` of a sprite row at columns `cx + c` on, `k = 8 - c` of them (R191). -/
def drawRowFrom (cx py : Nat) (row : Byte) : Nat → Framebuffer × Bool → Framebuffer × Bool
  | 0, p => p
  | k + 1, p => drawRowFrom cx py row k (drawBit (cx + (7 - k)) py (spriteBit row (7 - k)) p)

/-- The rows of a sprite, the first at row `py` (R191). -/
def drawRows (cx py : Nat) : List Byte → Framebuffer × Bool → Framebuffer × Bool
  | [], p => p
  | row :: rows, p => drawRows cx (py + 1) rows (drawRowFrom cx py row 8 p)

/-! ### The entropy source (60_exceptions.md R255) -/

/-- The answer that the next `draw_byte()` gives: the head of the substituted sequence, or a free byte. -/
def Entropy.answer (e : Entropy) : Byte :=
  match e.fixed with
  | u :: _ => u
  | [] => Config.freeByte e.drawn

/-- The source after one answer. -/
def Entropy.advance (e : Entropy) : Entropy := { fixed := e.fixed.tail, drawn := e.drawn + 1 }

/-- The state after `draw_byte()`: one byte consumed (R152). -/
def State.drawn (s : State) : State := { s with entropy := s.entropy.advance }

/-! ### Bounds of a memory block (20_memory.md R53) -/

/-- The address reported for a block from `I` on that passes 4095: the first accessed one above it (R177). -/
def firstBadAddress (i : Word) : Nat := max i.toNat 4096

/-- `body` if the `n` cells from `I` on lie within 0 to 4095, else `AddressOutOfRange` with nothing
changed: all addresses are checked before any write, and `n = 0` checks none (R53, R177, R195). -/
def State.withBlock (s : State) (n : Nat) (body : State) : State :=
  if n = 0 ∨ s.i.toNat + n ≤ 4096 then body
  else s.raise (.addressOutOfRange (firstBadAddress s.i))

end Sys2Proof.Machine
end

