-- ==== Sys2Proof/Machine/Operands.lean ====
section
/-! DEFINITION. The operand forms: immediates (spec 30_encoding.md R73), the shift source (00_scope.md R10),
the key operand (45_keypad_timers.md R210), the font address (43_index_memory.md R173) and the register
block of `Fx55` and `Fx65` (R74). -/

namespace Sys2Proof.Machine

/-- `zext_16(nnn)` (R73). -/
def zextAddr (nnn : Addr) : Word := nnn.setWidth 16

/-- `zext_16` of a byte (R73, R127). -/
def zextByte (u : Byte) : Word := u.setWidth 16

/-- The value `8xy6` and `8xyE` shift: `V[y]` with `SHIFT_SOURCE = VY`, `V[x]` with `VX` (R149, R151). -/
def State.shiftOperand (s : State) (x y : Reg) : Byte :=
  match s.params.shiftSource with
  | .vy => s.getV y
  | .vx => s.getV x

/-- The key a code names, or `none` above 0xF (R210). -/
def keyOfCode (a : Byte) : Option Key := if h : a.toNat < 16 then some ⟨a.toNat, h⟩ else none

/-- `Jump` target of `Bnnn`: `V[0] + nnn`, not masked to 12 bits (R127). -/
def State.indexedTarget (s : State) (nnn : Addr) : Word := zextByte (s.getV 0) + zextAddr nnn

/-- `FONT_BASE + 5 * a`, not reduced to the low nibble (R173). -/
def fontAddress (a : Byte) : Word := BitVec.ofNat 16 (Config.fontBase + 5 * a.toNat)

/-- Registers of the block V0..Vx: `x + 1` (R74, R175). -/
def blockLength (x : Reg) : Nat := x.val + 1

/-- The decimal digits that `Fx33` stores: hundreds, tens, ones (R174). -/
def decimalDigits (a : Byte) : List Byte :=
  [BitVec.ofNat 8 (a.toNat / 100), BitVec.ofNat 8 (a.toNat / 10 % 10), BitVec.ofNat 8 (a.toNat % 10)]

end Sys2Proof.Machine
end

