-- ==== Sys2Proof/Machine/Flags.lean ====
section
/-! DEFINITION. The ALU results and the flag that each instruction writes to VF (spec 42_alu.md R140, R154;
43_index_memory.md R172; 44_display.md R194). A flag is exactly 0 or 1. -/

namespace Sys2Proof.Machine

/-- A flag as the byte VF receives (R140). -/
def flagByte (b : Bool) : Byte := if b then 1 else 0

/-- `(a + b) mod 256` (R140). -/
def sumByte (a b : Byte) : Byte := BitVec.ofNat 8 (a.toNat + b.toNat)

/-- `(a - b) mod 256` (R140). -/
def diffByte (a b : Byte) : Byte := BitVec.ofNat 8 (a.toNat + 256 - b.toNat)

/-- Carry of `8xy4`: the sum exceeds 255 (R147). -/
def carry (a b : Byte) : Bool := decide (255 < a.toNat + b.toNat)

/-- No borrow of `a - b`: `a ≥ b` (R148, R150). -/
def noBorrow (a b : Byte) : Bool := decide (b.toNat ≤ a.toNat)

/-- `s >> 1`, logical (R149). -/
def shiftRight1 (a : Byte) : Byte := BitVec.ofNat 8 (a.toNat / 2)

/-- Bit 0 of the source, shifted out by `8xy6` (R149). -/
def lowBitOut (a : Byte) : Bool := decide (a.toNat % 2 = 1)

/-- `(s << 1) mod 256` (R151). -/
def shiftLeft1 (a : Byte) : Byte := BitVec.ofNat 8 (a.toNat * 2)

/-- Bit 7 of the source, shifted out by `8xyE` (R151). -/
def highBitOut (a : Byte) : Bool := decide (a.toNat / 128 = 1)

/-- `(I + a) mod 65536` (R171). -/
def indexSum (i : Word) (a : Byte) : Word := BitVec.ofNat 16 (i.toNat + a.toNat)

/-- Index overflow of `Fx1E`: the sum exceeds 0xFFF (R172). -/
def indexOverflows (i : Word) (a : Byte) : Bool := decide (0xFFF < i.toNat + a.toNat)

/-- `V[x] <- result`, then `V[0xF] <- flag` last (R22, R153). -/
def State.setResultAndFlag (s : State) (x : Reg) (result : Byte) (flag : Bool) : State :=
  (s.setV x result).setVF (flagByte flag)

end Sys2Proof.Machine
end

