-- ==== Sys2Proof/Machine/Alu.lean ====
section
/-! DEFINITION. Register loads, the ALU and the random byte (spec 42_alu.md R141 to R152). Every operand is
read before any write, `V[x]` is written next and VF last (R153). -/

namespace Sys2Proof.Machine

/-- End of an instruction whose only result is `V[x]` (R141 to R146). -/
def State.putV (s : State) (x : Reg) (u : Byte) : Result := .next ((s.setV x u).finish .next)

/-- End of an instruction with a result in `V[x]` and a flag in VF (R147 to R151). -/
def State.putVF (s : State) (x : Reg) (result : Byte) (flag : Bool) : Result :=
  .next ((s.setResultAndFlag x result flag).finish .next)

/-- `6xnn` (`LD Vx, nn`), R141. -/
def execLdImm (x : Reg) (nn : Byte) (s : State) : Result := s.putV x nn

/-- `7xnn` (`ADD Vx, nn`), R142: no carry flag. -/
def execAddImm (x : Reg) (nn : Byte) (s : State) : Result := s.putV x (sumByte (s.getV x) nn)

/-- `8xy0` (`LD Vx, Vy`), R143. -/
def execLdReg (x y : Reg) (s : State) : Result := s.putV x (s.getV y)

/-- `8xy1` (`OR Vx, Vy`), R144: VF is not reset. -/
def execOrReg (x y : Reg) (s : State) : Result := s.putV x (s.getV x ||| s.getV y)

/-- `8xy2` (`AND Vx, Vy`), R145: VF is not reset. -/
def execAndReg (x y : Reg) (s : State) : Result := s.putV x (s.getV x &&& s.getV y)

/-- `8xy3` (`XOR Vx, Vy`), R146: VF is not reset. -/
def execXorReg (x y : Reg) (s : State) : Result := s.putV x (s.getV x ^^^ s.getV y)

/-- `8xy4` (`ADD Vx, Vy`), R147. -/
def execAddReg (x y : Reg) (s : State) : Result :=
  s.putVF x (sumByte (s.getV x) (s.getV y)) (carry (s.getV x) (s.getV y))

/-- `8xy5` (`SUB Vx, Vy`), R148. -/
def execSubReg (x y : Reg) (s : State) : Result :=
  s.putVF x (diffByte (s.getV x) (s.getV y)) (noBorrow (s.getV x) (s.getV y))

/-- `8xy6` (`SHR Vx, Vy`), R149. -/
def execShrReg (x y : Reg) (s : State) : Result :=
  s.putVF x (shiftRight1 (s.shiftOperand x y)) (lowBitOut (s.shiftOperand x y))

/-- `8xy7` (`SUBN Vx, Vy`), R150. -/
def execSubnReg (x y : Reg) (s : State) : Result :=
  s.putVF x (diffByte (s.getV y) (s.getV x)) (noBorrow (s.getV y) (s.getV x))

/-- `8xyE` (`SHL Vx, Vy`), R151. -/
def execShlReg (x y : Reg) (s : State) : Result :=
  s.putVF x (shiftLeft1 (s.shiftOperand x y)) (highBitOut (s.shiftOperand x y))

/-- `Cxnn` (`RND Vx, nn`), R152: one byte of the entropy source is consumed, even with `nn = 0`. -/
def execRnd (x : Reg) (nn : Byte) (s : State) : Result :=
  s.drawn.putV x (s.entropy.answer &&& nn)

end Sys2Proof.Machine
end

