-- ==== Sys2Proof/Machine/ControlFlow.lean ====
section
/-! DEFINITION. Control transfer, the call stack and conditional skips (spec 41_control_flow.md R120 to R127). -/

namespace Sys2Proof.Machine

/-- `00EE` (`RET`), R120: pop into `pc`; `StackUnderflow` with an empty stack. -/
def execRet (s : State) : Result :=
  match s.pop with
  | some (target, s') => .next (s'.finish (.jump target))
  | none => .next (s.raise .stackUnderflow)

/-- `1nnn` (`JP nnn`), R121. -/
def execJp (nnn : Addr) (s : State) : Result := .next (s.finish (.jump (zextAddr nnn)))

/-- `2nnn` (`CALL nnn`), R122: push `pc0 + 2`; `StackOverflow` with 16 entries. -/
def execCall (nnn : Addr) (s : State) : Result :=
  match s.push (pcAfter s.pc .next) with
  | some s' => .next (s'.finish (.jump (zextAddr nnn)))
  | none => .next (s.raise .stackOverflow)

/-- `3xnn` (`SE Vx, nn`), R123. -/
def execSeImm (x : Reg) (nn : Byte) (s : State) : Result :=
  .next (s.finish (skipIf (s.getV x == nn)))

/-- `4xnn` (`SNE Vx, nn`), R124. -/
def execSneImm (x : Reg) (nn : Byte) (s : State) : Result :=
  .next (s.finish (skipIf (s.getV x != nn)))

/-- `5xy0` (`SE Vx, Vy`), R125. -/
def execSeReg (x y : Reg) (s : State) : Result :=
  .next (s.finish (skipIf (s.getV x == s.getV y)))

/-- `9xy0` (`SNE Vx, Vy`), R126. -/
def execSneReg (x y : Reg) (s : State) : Result :=
  .next (s.finish (skipIf (s.getV x != s.getV y)))

/-- `Bnnn` (`JP V0, nnn`), R127. -/
def execJpV0 (nnn : Addr) (s : State) : Result := .next (s.finish (.jump (s.indexedTarget nnn)))

end Sys2Proof.Machine
end

