-- ==== Sys2Proof/Machine/Display.lean ====
section
/-! DEFINITION. The framebuffer instructions (spec 44_display.md R190 to R197). Both set `redraw` whenever they
execute (10_state.md R31). -/

namespace Sys2Proof.Machine

/-- `FB` and `redraw` as a framebuffer instruction leaves them (R190, R191). -/
def State.setFB (s : State) (fb : Framebuffer) : State := { s with fb := fb, redraw := true }

/-- `00E0` (`CLS`), R190. -/
def execCls (s : State) : Result := .next ((s.setFB clearFramebuffer).finish .next)

/-- Framebuffer and collision after XORing the `n` sprite rows at `I` at (V[x], V[y]) (R191 to R194). -/
def State.drawSprite (s : State) (x y : Reg) (n : Nat) : Framebuffer × Bool :=
  drawRows (s.getV x).toNat (s.getV y).toNat (s.readBytes s.i.toNat n) (s.fb, false)

/-- `Dxyn` (`DRW Vx, Vy, n`), R191: framebuffer, then `redraw`, then VF last; `n = 0` reads nothing (R195). -/
def execDrw (x y : Reg) (n : Nat) (s : State) : Result :=
  .next (s.withBlock n
    (((s.setFB (s.drawSprite x y n).1).setVF (flagByte (s.drawSprite x y n).2)).finish .next))

end Sys2Proof.Machine
end

