-- ==== Sys2Proof/Machine/IndexMemory.lean ====
section
/-! DEFINITION. The index register and the memory-block instructions (spec 43_index_memory.md R170 to R177).
Addresses are checked before any write (20_memory.md R53). -/

namespace Sys2Proof.Machine

/-- `Annn` (`LD I, nnn`), R170. -/
def execLdI (nnn : Addr) (s : State) : Result := .next ((s.setI (zextAddr nnn)).finish .next)

/-- The write of VF that `FX1E_VF_OVERFLOW = ON` adds to `Fx1E`, none with `OFF` (R171, R172). -/
def State.setIndexFlag (s : State) (q : IndexOverflowQuirk) (overflow : Bool) : State :=
  match q with
  | .off => s
  | .on => s.setVF (flagByte overflow)

/-- `Fx1E` (`ADD I, Vx`), R171 and R172: `I` first, then VF last where the parameter says so. -/
def execAddI (x : Reg) (s : State) : Result :=
  .next (((s.setI (indexSum s.i (s.getV x))).setIndexFlag s.params.indexOverflow
    (indexOverflows s.i (s.getV x))).finish .next)

/-- `Fx29` (`LD F, Vx`), R173. -/
def execLdFont (x : Reg) (s : State) : Result :=
  .next ((s.setI (fontAddress (s.getV x))).finish .next)

/-- `Fx33` (`LD B, Vx`), R174: three digits at `I`, `I` unchanged. -/
def execLdBcd (x : Reg) (s : State) : Result :=
  .next (s.withBlock 3 ((s.writeBytes s.i.toNat (decimalDigits (s.getV x))).finish .next))

/-- `I <- (I + x + 1) mod 65536` (R175, R176). -/
def indexPast (i : Word) (x : Reg) : Word := BitVec.ofNat 16 (i.toNat + blockLength x)

/-- `Fx55` (`LD [I], Vx`), R175: V0..Vx to `I` on, `I` ends just past the block. -/
def execStoreRegs (x : Reg) (s : State) : Result :=
  .next (s.withBlock (blockLength x)
    (((s.writeBytes s.i.toNat (s.getVs 0 (blockLength x))).setI (indexPast s.i x)).finish .next))

/-- `Fx65` (`LD Vx, [I]`), R176: V0..Vx from `I` on, `I` ends just past the block. -/
def execLoadRegs (x : Reg) (s : State) : Result :=
  .next (s.withBlock (blockLength x)
    (((s.setVs 0 (s.readBytes s.i.toNat (blockLength x))).setI (indexPast s.i x)).finish .next))

end Sys2Proof.Machine
end

