-- ==== Sys2Proof/Machine/KeypadTimers.lean ====
section
/-! DEFINITION. The keypad and timer instructions (spec 45_keypad_timers.md R210 to R216). -/

namespace Sys2Proof.Machine

/-- A key test: skip when key `V[x]` is down (`down = true`) or up; `KeyOutOfRange` for a code above 0xF
(R210, R211). -/
def State.testKey (s : State) (a : Byte) (down : Bool) : State :=
  match keyOfCode a with
  | some k => s.finish (skipIf (s.keyDown k == down))
  | none => s.raise (.keyOutOfRange a)

/-- `Ex9E` (`SKP Vx`), R210. -/
def execSkp (x : Reg) (s : State) : Result := .next (s.testKey (s.getV x) true)

/-- `ExA1` (`SKNP Vx`), R211. -/
def execSknp (x : Reg) (s : State) : Result := .next (s.testKey (s.getV x) false)

/-- `Fx07` (`LD Vx, DT`), R212. -/
def execLdVxDt (x : Reg) (s : State) : Result := s.putV x s.dt

/-- `Fx0A` (`LD Vx, K`), R213: `run <- Waiting(x)`; `V[x]` is written by the key edge that resumes (R214). -/
def execLdVxKey (x : Reg) (s : State) : Result := .next ((s.setRun (.waiting x)).finish .next)

/-- `Fx15` (`LD DT, Vx`), R215. -/
def execLdDtVx (x : Reg) (s : State) : Result := .next ((s.setDT (s.getV x)).finish .next)

/-- `Fx18` (`LD ST, Vx`), R216. -/
def execLdStVx (x : Reg) (s : State) : Result := .next ((s.setST (s.getV x)).finish .next)

end Sys2Proof.Machine
end

