-- ==== Sys2Proof/Machine/Fetch.lean ====
section
/-! DEFINITION. Fetch (spec 40_engine.md R101), the run states of a step (R100) and placing a word where the
next step fetches it. -/

namespace Sys2Proof.Machine

/-- The word at `pc`, big-endian, or `none` when `pc + 1 > 4095` (R101). `pc` may be odd (R56). -/
def State.fetch (s : State) : Option Word :=
  if s.pc.toNat + 1 ≤ 4095 then
    some (joinBytes (s.readByte s.pc.toNat) (s.readByte (s.pc.toNat + 1)))
  else none

/-- `step` while `Running`: fetch, decode, execute and advance, in one piece (R107, R108, R238). -/
def stepRunning (s : State) : Result :=
  match s.fetch with
  | none => .next (s.raise (.addressOutOfRange s.pc.toNat))
  | some w =>
    match decode w with
    | none => .next (s.raise (.unknownOpcode w))
    | some i => exec i s

/-- `step` (R100): a no-op while `Waiting`, no effect in `Halted`. -/
def stepEngine (s : State) : Result :=
  match s.run with
  | .running => stepRunning s
  | .waiting _ => .next s
  | .halted _ => .next s

/-- The address from which the word placed by `placeWord` is fetched: `pc` where a fetch at `pc` succeeds,
else the reset vector. -/
def fetchablePc (pc : Word) : Word := if pc.toNat + 1 ≤ 4095 then pc else 0x200

/-- The state with a word at its fetch address, `Running`, and `pc` where a fetch succeeds: all that the
very next step needs to run the word, and nothing else changed (log entry 9). -/
def State.placeWord (s : State) (w : Word) : State :=
  let t := { s with pc := fetchablePc s.pc, run := .running }
  t.writeBytes t.pc.toNat (bytesOfWord w)

end Sys2Proof.Machine
end

