-- ==== Sys2Proof/Machine/Step.lean ====
section
/-! DEFINITION. The engine's step function (spec 40_engine.md R100, R107), invoked once per
instruction-clock tick. -/

namespace Sys2Proof.Machine

/-- One step of the instruction engine. -/
def step (s : State) : Host.Outcome State Fault Refusal := stepEngine s

/-- `s` with the instruction whose bits are `w` stored where `step` fetches its next instruction. -/
def State.withFetchWord (s : State) (nbits w : Nat) : State := s.placeWord (tableWord nbits w)

end Sys2Proof.Machine
end

