-- ==== Sys2Proof/Machine/Agents.lean ====
section
/-! DEFINITION. The agents beside the instruction engine (spec 60_exceptions.md R257): the timer clock and the
host. Every action of every agent is atomic, all actions form one total order, and the order is free: a run
is any list of actions (R108, R241, R257). Cancelling is the end of the list (70_reset_and_hazards.md R276).
Actions act on a session: the machine and how far its boot sequence has come (R275; log entry 8). -/

namespace Sys2Proof.Machine

/-- `if t > 0: t <- t - 1` (R240). -/
def countDown (t : Byte) : Byte := BitVec.ofNat 8 (t.toNat - 1)

/-- One tick of the 60 Hz timer clock (R240): allowed in every run state (R241, R242, R235). -/
def State.tick (s : State) : State := { s with dt := countDown s.dt, st := countDown s.st }

/-- A key-down edge of key `k` (R214): `K[k] <- true`, and a waiting engine resumes with the key code in
`V[x]`. An edge while not waiting is not remembered. -/
def State.pressKey (s : State) (k : Key) : State :=
  match s.run with
  | .waiting x => ((s.setKey k true).setV x (BitVec.ofNat 8 k.val)).setRun .running
  | .running => s.setKey k true
  | .halted _ => s.setKey k true

/-- The frame the renderer copies: the 2048 cells, row-major, cell (x, y) at `y * 64 + x` (R29, R251). -/
def State.frame (s : State) : List Bool :=
  (List.range 2048).map fun k => Framebuffer.cell s.fb (k % 64) (k / 64)

/-- The state after the renderer has consumed a frame (R251). -/
def State.acknowledge (s : State) : State := { s with redraw := false }

/-- Reset (R270): every component to its reset value, in every run state. The parameters are fixed for a run
(R36) and the entropy source is outside the machine, so both stay (log entry 4). -/
def State.resetNow (s : State) : State := State.resetWith s.params s.entropy

/-- The ROM load (R273): byte `i` to `mem[0x200 + i]`, nothing else; `RomTooLarge` above 3584 bytes with
nothing written. -/
def State.loadRom (s : State) (rom : List Byte) : Result :=
  if Config.maxRom < rom.length then .fault .romTooLarge
  else .next (s.writeBytes Config.progBase rom)

/-- How far the boot sequence of R275 has come since the last reset. The host's session protocol (R274, R41),
no state of the machine: no instruction reads or writes it (log entry 8). -/
inductive Phase where
  /-- The machine has been reset; nothing has been loaded and no step made since. -/
  | fresh
  /-- A ROM has been loaded since the reset; no step has been made. -/
  | loaded
  /-- A step has been made since the reset: the instruction clock is running. -/
  | started
  deriving DecidableEq, Repr

/-- A session: the machine, and how far its boot sequence has come. -/
structure Session where
  machine : State
  phase : Phase
  deriving DecidableEq, Repr

/-- The session right after the first reset. -/
def Session.start : Session := { machine := .reset, phase := .fresh }

/-- What an action answers. -/
abbrev SessionResult := Host.Outcome Session Fault Refusal

/-- A machine's answer as the answer of a session that is then in phase `p`. -/
def inPhase (p : Phase) : Result → SessionResult
  | .next s => .next { machine := s, phase := p }
  | .fault f => .fault f
  | .refused r => .refused r

/-- One action of an agent (R257). -/
inductive Action where
  /-- The instruction engine's `step` (R100). -/
  | step
  /-- The timer clock's tick (R240). -/
  | tick
  /-- The input source: a key-down edge (R214, R252). -/
  | keyDown (k : Key)
  /-- The input source: a key goes up (R252). -/
  | keyUp (k : Key)
  /-- The renderer consumes a frame (R251). -/
  | consume
  /-- The host resets the core (R270). -/
  | reset
  /-- The host loads a ROM (R273, R274). -/
  | load (rom : List Byte)
  deriving DecidableEq, Repr

/-- The input source's key-down action: an edge, where the key is up (R214, R252). -/
def State.keyDownAction (s : State) (k : Key) : Result :=
  if s.keyDown k then .refused (.keyAlreadyDown k) else .next (s.pressKey k)

/-- The input source's key-up action: a release, where the key is down (R252). -/
def State.keyUpAction (s : State) (k : Key) : Result :=
  if s.keyDown k then .next (s.setKey k false) else .refused (.keyAlreadyUp k)

/-- The renderer's consume action, where a frame is due (R251). -/
def State.consumeAction (s : State) : Result :=
  if s.redraw then .next s.acknowledge else .refused .nothingToRedraw

/-- The session's load action: it has a move after a reset and before the first step (R274), once for each
reset, since every ROM load comes after a reset (R41, 90_conflicts.md C4; log entry 8). -/
def Session.load (c : Session) (rom : List Byte) : SessionResult :=
  match c.phase with
  | .fresh => inPhase .loaded (c.machine.loadRom rom)
  | .loaded | .started => .refused .loadOutsideBoot

/-- The effect of one action. Where the spec requires a condition that does not hold, the action has no
move: a refusal under a name of its own. -/
def act (a : Action) (c : Session) : SessionResult :=
  match a with
  | .step => inPhase .started (step c.machine)
  | .tick => inPhase c.phase (.next c.machine.tick)
  | .keyDown k => inPhase c.phase (c.machine.keyDownAction k)
  | .keyUp k => inPhase c.phase (c.machine.keyUpAction k)
  | .consume => inPhase c.phase c.machine.consumeAction
  | .reset => inPhase .fresh (.next c.machine.resetNow)
  | .load rom => c.load rom

/-- A run: the actions one after another, up to the first that has no next state. -/
def runActions : List Action → Session → SessionResult
  | [], c => .next c
  | a :: rest, c =>
    match act a c with
    | .next c' => runActions rest c'
    | .fault r => .fault r
    | .refused r => .refused r

/-- The number the spec gives an error (R230). -/
def Error.code : Error → Nat
  | .addressOutOfRange _ => 1
  | .stackOverflow => 2
  | .stackUnderflow => 3
  | .unknownOpcode _ => 4
  | .keyOutOfRange _ => 5

/-- The number the spec gives the loader's error (R230). -/
def Fault.code : Fault → Nat
  | .romTooLarge => 6

end Sys2Proof.Machine
end

