-- ==== Sys2Proof/Safety.lean ====
section
/-! DEFINITION. The terms in which claims speak of a run: what an action leaves unchanged (frames), which
components and registers each instruction writes and reads (spec 10_state.md R34), which error a step raises
(60_exceptions.md R230, R238), what counts as a safe step, and the invariants of reachable states (R45) and of
reachable sessions (R274). -/

namespace Sys2Proof.Machine

/-! ### Frames -/

/-- The twelve components of the Machine State (R20), and the two arguments that stand beside it in `State`
(log entries 1 and 2). -/
inductive Component where
  | mem | v | i | pc | stack | sp | dt | st | fb | keys | redraw | run | params | entropy
  deriving DecidableEq, Repr

/-- The component has the same value in both states; for memory, every byte reads the same. -/
def Component.same (c : Component) (s t : State) : Prop :=
  match c with
  | .mem => ∀ a, t.readByte a = s.readByte a
  | .v => ∀ r, t.getV r = s.getV r
  | .i => t.i = s.i
  | .pc => t.pc = s.pc
  | .stack => t.stack = s.stack
  | .sp => t.sp = s.sp
  | .dt => t.dt = s.dt
  | .st => t.st = s.st
  | .fb => t.fb = s.fb
  | .keys => t.keys = s.keys
  | .redraw => t.redraw = s.redraw
  | .run => t.run = s.run
  | .params => t.params = s.params
  | .entropy => t.entropy = s.entropy

/-- From `s` to `t` nothing changes but, at most, the listed components. -/
def ChangesOnly (cs : List Component) (s t : State) : Prop := ∀ c, c ∉ cs → c.same s t

/-- Every V register but those listed holds in `t` what it holds in `s`. -/
def RegsSameBut (xs : List Reg) (s t : State) : Prop := ∀ r, r ∉ xs → t.getV r = s.getV r

/-- Every byte of memory outside the `n` cells from `a` on reads in `t` as in `s`. -/
def MemSameOutside (a n : Nat) (s t : State) : Prop :=
  ∀ b, ¬ (a ≤ b ∧ b < a + n) → t.readByte b = s.readByte b

end Sys2Proof.Machine

namespace Sys2Proof

open Sys2Proof.Machine

/-! ### Writers and readers (R34) -/

/-- The components that an instruction may write when it completes (R34; R213 for `run`). -/
def Instr.writes (p : Params) : Instr → List Component
  | .cls => [.fb, .redraw, .pc]
  | .ret => [.sp, .pc]
  | .jp _ => [.pc]
  | .call _ => [.stack, .sp, .pc]
  | .seImm _ _ | .sneImm _ _ | .seReg _ _ | .sneReg _ _ => [.pc]
  | .ldImm _ _ | .addImm _ _ | .ldReg _ _ | .orReg _ _ | .andReg _ _ | .xorReg _ _ => [.v, .pc]
  | .addReg _ _ | .subReg _ _ | .shrReg _ _ | .subnReg _ _ | .shlReg _ _ => [.v, .pc]
  | .ldI _ => [.i, .pc]
  | .jpV0 _ => [.pc]
  | .rnd _ _ => [.v, .entropy, .pc]
  | .drw _ _ _ => [.v, .fb, .redraw, .pc]
  | .skp _ | .sknp _ => [.pc]
  | .ldVxDt _ => [.v, .pc]
  | .ldVxKey _ => [.run, .pc]
  | .ldDtVx _ => [.dt, .pc]
  | .ldStVx _ => [.st, .pc]
  | .addI _ => match p.indexOverflow with
    | .off => [.i, .pc]
    | .on => [.i, .v, .pc]
  | .ldFont _ => [.i, .pc]
  | .ldBcd _ => [.mem, .pc]
  | .storeRegs _ => [.mem, .i, .pc]
  | .loadRegs _ => [.v, .i, .pc]

/-- The registers V0..Vx (R74). -/
def Machine.blockRegs (x : Reg) : List Reg := (List.finRange 16).filter fun r => r.val ≤ x.val

/-- The V registers that an instruction writes (R34, R35). -/
def Instr.regsWritten (p : Params) : Instr → List Reg
  | .ldImm x _ | .addImm x _ | .ldReg x _ | .orReg x _ | .andReg x _ | .xorReg x _ => [x]
  | .addReg x _ | .subReg x _ | .shrReg x _ | .subnReg x _ | .shlReg x _ => [x, 15]
  | .rnd x _ | .ldVxDt x => [x]
  | .drw _ _ _ => [15]
  | .addI _ => match p.indexOverflow with
    | .off => []
    | .on => [15]
  | .loadRegs x => blockRegs x
  | .cls | .ret | .jp _ | .call _ | .seImm _ _ | .sneImm _ _ | .seReg _ _ | .sneReg _ _ => []
  | .ldI _ | .jpV0 _ | .skp _ | .sknp _ | .ldVxKey _ | .ldDtVx _ | .ldStVx _ => []
  | .ldFont _ | .ldBcd _ | .storeRegs _ => []

/-- How many cells from `I` on an instruction stores to (R57). -/
def Instr.cellsStored : Instr → Nat
  | .ldBcd _ => 3
  | .storeRegs x => blockLength x
  | .cls | .ret | .jp _ | .call _ | .seImm _ _ | .sneImm _ _ | .seReg _ _ | .sneReg _ _ => 0
  | .ldImm _ _ | .addImm _ _ | .ldReg _ _ | .orReg _ _ | .andReg _ _ | .xorReg _ _ => 0
  | .addReg _ _ | .subReg _ _ | .shrReg _ _ | .subnReg _ _ | .shlReg _ _ => 0
  | .ldI _ | .jpV0 _ | .rnd _ _ | .drw _ _ _ | .skp _ | .sknp _ | .ldVxDt _ | .ldVxKey _ => 0
  | .ldDtVx _ | .ldStVx _ | .addI _ | .ldFont _ | .loadRegs _ => 0

/-- The components other than `V` and `pc` that an instruction reads (R34; `2nnn` also needs `sp`, and the
entries it keeps, and `Cxnn` reads the entropy source). -/
def Instr.reads : Instr → List Component
  | .ret => [.stack, .sp]
  | .call _ => [.stack, .sp]
  | .rnd _ _ => [.entropy]
  | .drw _ _ _ => [.i, .mem, .fb]
  | .skp _ | .sknp _ => [.keys]
  | .ldVxDt _ => [.dt]
  | .addI _ => [.i]
  | .ldBcd _ => [.i]
  | .storeRegs _ => [.i]
  | .loadRegs _ => [.i, .mem]
  | .cls | .jp _ | .seImm _ _ | .sneImm _ _ | .seReg _ _ | .sneReg _ _ => []
  | .ldImm _ _ | .addImm _ _ | .ldReg _ _ | .orReg _ _ | .andReg _ _ | .xorReg _ _ => []
  | .addReg _ _ | .subReg _ _ | .shrReg _ _ | .subnReg _ _ | .shlReg _ _ => []
  | .ldI _ | .jpV0 _ | .ldVxKey _ | .ldDtVx _ | .ldStVx _ | .ldFont _ => []

/-- The V registers that an instruction reads (R34). -/
def Instr.regsRead (p : Params) : Instr → List Reg
  | .seImm x _ | .sneImm x _ | .addImm x _ => [x]
  | .seReg x y | .sneReg x y => [x, y]
  | .ldReg _ y => [y]
  | .orReg x y | .andReg x y | .xorReg x y | .addReg x y | .subReg x y | .subnReg x y => [x, y]
  | .shrReg x y | .shlReg x y => match p.shiftSource with
    | .vy => [y]
    | .vx => [x]
  | .jpV0 _ => [0]
  | .drw x y _ => [x, y]
  | .skp x | .sknp x | .ldDtVx x | .ldStVx x | .addI x | .ldFont x | .ldBcd x => [x]
  | .storeRegs x => blockRegs x
  | .cls | .ret | .jp _ | .call _ | .ldImm _ _ | .ldI _ | .rnd _ _ => []
  | .ldVxDt _ | .ldVxKey _ | .loadRegs _ => []

/-! ### Errors of a step (R230, R238) -/

/-- The error of an instruction that accesses `n` cells from `I` on (R53, R177). -/
def Machine.blockError (s : State) (n : Nat) : Option Error :=
  if 0 < n ∧ 4095 < s.i.toNat + n - 1 then some (.addressOutOfRange (max s.i.toNat 4096)) else none

/-- The error of a key test (R210, R211). -/
def Machine.keyError (s : State) (x : Reg) : Option Error :=
  if 0xF < (s.getV x).toNat then some (.keyOutOfRange (s.getV x)) else none

/-- The one check of each instruction that has one (R238), none for the others (R231). -/
def Instr.errorOn (s : State) : Instr → Option Error
  | .ret => if s.sp = 0 then some .stackUnderflow else none
  | .call _ => if s.sp = 16 then some .stackOverflow else none
  | .drw _ _ n => blockError s n
  | .ldBcd _ => blockError s 3
  | .storeRegs x | .loadRegs x => blockError s (x.val + 1)
  | .skp x | .sknp x => keyError s x
  | .cls | .jp _ | .seImm _ _ | .sneImm _ _ | .seReg _ _ | .sneReg _ _ => none
  | .ldImm _ _ | .addImm _ _ | .ldReg _ _ | .orReg _ _ | .andReg _ _ | .xorReg _ _ => none
  | .addReg _ _ | .subReg _ _ | .shrReg _ _ | .subnReg _ _ | .shlReg _ _ => none
  | .ldI _ | .jpV0 _ | .rnd _ _ | .ldVxDt _ | .ldVxKey _ | .ldDtVx _ | .ldStVx _ => none
  | .addI _ | .ldFont _ => none

end Sys2Proof

namespace Sys2Proof.Machine

/-- The word that a step would fetch, where the fetch succeeds (R55, R101). -/
def State.word (s : State) : Word :=
  (s.readByte s.pc.toNat).setWidth 16 <<< 8 ||| (s.readByte (s.pc.toNat + 1)).setWidth 16

/-- The error that a step raises while `Running`, in the order of R238: fetch, decode, the instruction's
own check. -/
def State.stepError (s : State) : Option Error :=
  if 4095 < s.pc.toNat + 1 then some (.addressOutOfRange s.pc.toNat)
  else match decode s.word with
    | none => some (.unknownOpcode s.word)
    | some i => i.errorOn s

/-- A safe step: the engine runs and the step raises no error. -/
def State.SafeStep (s : State) : Prop := s.run = .running ∧ s.stepError = none

/-- The engine has halted with an error (R234). -/
def State.Halted (s : State) : Prop := ∃ e, s.run = .halted e

/-- The engine waits for a key (R213). -/
def State.Waiting (s : State) : Prop := ∃ x, s.run = .waiting x

/-! ### The invariant of reachable states (R45) -/

/-- The live stack entries are return addresses, 0x002 to 0x1000 (R45). -/
def State.StackInv (s : State) : Prop :=
  ∀ k : Fin 16, k.val < s.sp.val → 2 ≤ s.stack[k.val].toNat ∧ s.stack[k.val].toNat ≤ 0x1000

/-- Memory is in canonical form, `pc` is at most 0x10FE and the live stack entries are return addresses
(R45). The other bounds of R45 hold by the types of the fields. -/
structure State.Inv (s : State) : Prop where
  memory : s.memWf = true
  pc : s.pc.toNat ≤ 0x10FE
  stack : s.StackInv

/-- The machine meets its invariant, and until the first step after a reset it is as the reset left it but for
the keys and what a ROM load stores from 0x200 on (R39, R273, R274). -/
structure Session.Inv (c : Session) : Prop where
  machine : c.machine.Inv
  fresh : c.phase = .fresh → c.machine = { c.machine.resetNow with keys := c.machine.keys }
  loaded : c.phase = .loaded →
    c.machine = { c.machine.resetNow with mem := c.machine.mem, keys := c.machine.keys } ∧
    ∀ a, a < 0x200 → c.machine.readByte a = c.machine.resetNow.readByte a

/-! ### The shapes in which claims speak of an instruction -/

/-- Every word of the row with this mask and value decodes to the instruction with the word's own fields. -/
def DecodesRow (mask value : Word) (f : Word → Instr) : Prop :=
  ∀ w : Word, w &&& mask = value → decode w = some (f w)

/-- Bits 11 to 8 of a word as a register number (R71). -/
def bitsX (w : Word) : Reg := (w.extractLsb' 8 4).toFin

/-- Bits 7 to 4 of a word as a register number (R71). -/
def bitsY (w : Word) : Reg := (w.extractLsb' 4 4).toFin

/-- The instruction completes in `s` with `u` in `V[x]`, every other register kept, `pc` advanced by 2 and
nothing else changed. -/
def CompletesWithReg (i : Instr) (s : State) (x : Reg) (u : Byte) : Prop :=
  ∃ t, exec i s = .next t ∧ t.getV x = u ∧ RegsSameBut [x] s t ∧ t.pc = s.pc + 2 ∧
    ChangesOnly [.v, .pc] s t

/-- The instruction completes in `s` with `flag` (0 or 1) in VF, the byte `result` in `V[x]` unless `V[x]` is
VF, every other register kept, `pc` advanced by 2 and nothing else changed (R22). -/
def CompletesWithFlag (i : Instr) (s : State) (x : Reg) (result : Nat) (flag : Prop) : Prop :=
  ∃ t, exec i s = .next t ∧ (x ≠ 15 → (t.getV x).toNat = result) ∧
    (flag → t.getV 15 = 1) ∧ (¬ flag → t.getV 15 = 0) ∧ RegsSameBut [x, 15] s t ∧
    t.pc = s.pc + 2 ∧ ChangesOnly [.v, .pc] s t

/-- The instruction completes in `s` by setting `pc` to the target alone. -/
def CompletesWithPc (i : Instr) (s : State) (target : Word) : Prop :=
  ∃ t, exec i s = .next t ∧ t.pc = target ∧ ChangesOnly [.pc] s t

/-- The instruction raises the error in `s`: `run` records it and nothing else changes (R232, R233). -/
def Raises (i : Instr) (s : State) (e : Error) : Prop := exec i s = .next { s with run := .halted e }

/-- A set bit of the sprite of `Dxyn` falls on cell (px, py): row `r` is the cell at `I + r`, bit 7 is the
leftmost pixel, and both coordinates wrap (R191 to R193). -/
def SpriteCovers (s : State) (x y : Reg) (n px py : Nat) : Prop :=
  ∃ r c, r < n ∧ c < 8 ∧ (s.readByte (s.i.toNat + r)).getLsbD (7 - c) = true ∧
    ((s.getV x).toNat + c) % 64 = px ∧ ((s.getV y).toNat + r) % 32 = py

/-- How many words of the family `op` decode to no instruction (R76). -/
def illegalCount (op : Nat) : Nat :=
  ((List.range 4096).filter fun k => (decode (BitVec.ofNat 16 (op * 4096 + k))).isNone).length

end Sys2Proof.Machine
end

