-- ==== Sys2Proof/Certificates/Slice0/Obligations.lean ====
section
/-! DEFINITION. The statements about the model, one `def Obligations.<Name> : Prop` each. A docstring names the
rule or section of spec/ that the statement formalises; where a clause rests on a decision of the spec's own
(92_eei_decisions.md) or on a log entry, it says so. `pc` sums are 16-bit (log entry 5). -/

open Sys2Proof Sys2Proof.Machine

/-! ### Encoding (30_encoding.md) -/

/-- Decoding the word of a well-formed instruction gives that instruction back: no bit of an encoding is
dropped (R71, R72, R75). -/
def Obligations.DecodeOfEncodeIsIdentity : Prop :=
  ∀ i : Instr, i.WellFormed → decode (encode i) = some i

/-- Every word that decodes is the word of the instruction it decodes to, and that instruction is well-formed:
each legal word has one meaning (R75, R77). -/
def Obligations.EncodeOfDecodeIsIdentity : Prop :=
  ∀ (w : Word) (i : Instr), decode w = some i → i.WellFormed ∧ encode i = w

/-- The opcode table has 34 rows, a word matches a row exactly when it decodes to an instruction of that row, no
word matches two rows, and a word that matches none decodes to nothing (R75; the low-nibble checks of
families 0x5 and 0x9 are decision D8). -/
def Obligations.DecodeFollowsOpcodeTable : Prop :=
  opcodeTable.length = 34 ∧
  (∀ w : Word, ∀ row ∈ opcodeTable,
    (w &&& row.mask = row.value ↔ ∃ i, decode w = some i ∧ rowOf i = row)) ∧
  (∀ w : Word, ∀ row ∈ opcodeTable, ∀ row' ∈ opcodeTable,
    w &&& row.mask = row.value → w &&& row'.mask = row'.value → row = row') ∧
  (∀ w : Word, decode w = none ↔ ∀ row ∈ opcodeTable, w &&& row.mask ≠ row.value)

/-- The fields are the bits of R71, and they overlap as R71 says. -/
def Obligations.FieldsAreMaskedBits : Prop :=
  ∀ w : Word,
    opOf w = (w >>> 12 &&& 0xF).toNat ∧ (xOf w).val = (w >>> 8 &&& 0xF).toNat ∧
    (yOf w).val = (w >>> 4 &&& 0xF).toNat ∧ nOf w = (w &&& 0xF).toNat ∧
    (nnOf w).toNat = (w &&& 0xFF).toNat ∧ (nnnOf w).toNat = (w &&& 0xFFF).toNat ∧
    nnOf w = BitVec.ofNat 8 ((yOf w).val <<< 4 ||| nOf w) ∧
    nnnOf w = BitVec.ofNat 12 ((xOf w).val <<< 8 ||| (nnOf w).toNat)

/-- Which words of each family are illegal, how many of each family and how many in all, 21582 (R76; decision D8:
every word outside the table, in any family). -/
def Obligations.IllegalWordsByFamily : Prop :=
  (∀ w : Word, decode w = none ↔
    (w >>> 12 = 0x0 ∧ w ≠ 0x00E0 ∧ w ≠ 0x00EE) ∨
    (w >>> 12 = 0x5 ∧ w &&& 0xF ≠ 0) ∨
    (w >>> 12 = 0x8 ∧ (w &&& 0xF).toNat ∈ [0x8, 0x9, 0xA, 0xB, 0xC, 0xD, 0xF]) ∨
    (w >>> 12 = 0x9 ∧ w &&& 0xF ≠ 0) ∨
    (w >>> 12 = 0xE ∧ (w &&& 0xFF).toNat ∉ [0x9E, 0xA1]) ∨
    (w >>> 12 = 0xF ∧
      (w &&& 0xFF).toNat ∉ [0x07, 0x0A, 0x15, 0x18, 0x1E, 0x29, 0x33, 0x55, 0x65])) ∧
  (List.range 16).map illegalCount =
    [4094, 0, 0, 0, 0, 3840, 0, 0, 1792, 3840, 0, 0, 0, 0, 4064, 3952] ∧
  ((List.range 16).map illegalCount).sum = 21582

/-- A decoder consumes exactly two bytes, the high byte first, and fewer than two hold no instruction (R70). -/
def Obligations.DecodeConsumesTwoBytes : Prop :=
  (∀ (hi lo : Byte) (rest : List Byte),
    decodeBytes (hi :: lo :: rest) =
      (decode (hi.setWidth 16 <<< 8 ||| lo.setWidth 16)).map fun i => (i, rest)) ∧
  decodeBytes [] = none ∧ (∀ b : Byte, decodeBytes [b] = none) ∧
  (∀ (i : Instr) (rest : List Byte), i.WellFormed → decodeBytes (encodeBytes i ++ rest) = some (i, rest))

/-- Words written out from the encodings of R72 and R75, one or more of each of the 16 families, the values of the
top nibble (R71; sanity). -/
def Obligations.SpecWordsDecode : Prop :=
  decode 0x00E0 = some .cls ∧ decode 0x00EE = some .ret ∧ decode 0x1234 = some (.jp 0x234) ∧
  decode 0x2ABC = some (.call 0xABC) ∧ decode 0x3A42 = some (.seImm 0xA 0x42) ∧
  decode 0x4A42 = some (.sneImm 0xA 0x42) ∧ decode 0x5AB0 = some (.seReg 0xA 0xB) ∧
  decode 0x6F05 = some (.ldImm 0xF 0x05) ∧ decode 0x7AFF = some (.addImm 0xA 0xFF) ∧
  decode 0x8AB4 = some (.addReg 0xA 0xB) ∧ decode 0x8ABE = some (.shlReg 0xA 0xB) ∧
  decode 0x9AB0 = some (.sneReg 0xA 0xB) ∧ decode 0xA2F0 = some (.ldI 0x2F0) ∧
  decode 0xBFFF = some (.jpV0 0xFFF) ∧ decode 0xC30F = some (.rnd 0x3 0x0F) ∧
  decode 0xD015 = some (.drw 0 1 5) ∧ decode 0xE59E = some (.skp 5) ∧ decode 0xF20A = some (.ldVxKey 2) ∧
  decode 0xF355 = some (.storeRegs 3)

/-! ### The step (40_engine.md) -/

/-- While `Running`, when the two cells at `pc` exist and their word decodes, a step is that instruction's
execution in the same state; `pc` is moved by the instruction's own outcome (R103, R107). -/
def Obligations.StepRunsDecodedInstruction : Prop :=
  ∀ (s : State) (i : Instr), s.run = .running → s.pc.toNat + 1 ≤ 4095 → decode s.word = some i →
    step s = exec i s

/-- The fetched word is the two consecutive cells at `pc`, the first the high byte (R55). -/
def Obligations.FetchIsBigEndian : Prop :=
  ∀ s : State, s.pc.toNat + 1 ≤ 4095 →
    s.fetch = some ((s.readByte s.pc.toNat).setWidth 16 <<< 8 |||
      (s.readByte (s.pc.toNat + 1)).setWidth 16)

/-- A step is a no-op while `Waiting` and has no effect in `Halted` (R100; decisions D15 and D16). -/
def Obligations.IdleStepsChangeNothing : Prop :=
  ∀ s : State, s.Waiting ∨ s.Halted → step s = .next s

/-- Placing a word with `withFetchWord` makes the next step run exactly that instruction, and changes nothing but
two cells of memory, `run`, and `pc` where no fetch could succeed (the model's own operation, log
entry 9; a fetch sees earlier writes, R63). -/
def Obligations.PlacedWordRuns : Prop :=
  ∀ (s : State) (w : Nat) (i : Instr), s.memWf = true → w < 65536 → decode (BitVec.ofNat 16 w) = some i →
    step (s.withFetchWord 16 w) = exec i (s.withFetchWord 16 w) ∧
    (s.withFetchWord 16 w).word = BitVec.ofNat 16 w ∧
    ChangesOnly [.mem, .pc, .run] s (s.withFetchWord 16 w) ∧
    MemSameOutside (s.withFetchWord 16 w).pc.toNat 2 s (s.withFetchWord 16 w) ∧
    (s.pc.toNat + 1 ≤ 4095 → (s.withFetchWord 16 w).pc = s.pc)

/-- A store into the next instruction's cells is what the next fetch reads: no fence, no delay (R63, R281,
decision D19). -/
def Obligations.StoredCodeIsFetched : Prop :=
  ∀ (x hi lo : Reg) (s t : State), s.memWf = true → exec (.storeRegs x) s = .next t → ¬ t.Halted →
    t.pc.toNat = s.i.toNat + hi.val → lo.val = hi.val + 1 → lo.val ≤ x.val →
    t.word = (s.getV hi).setWidth 16 <<< 8 ||| (s.getV lo).setWidth 16

/-! ### Errors (60_exceptions.md) -/

/-- A running step raises exactly the error that R230 and R238 give, in the order fetch, decode, the instruction's
own check, with the run state alone changed; and where they give none it completes without one
(R230, R231, R238; the kinds and payloads of decisions D14, D16, D17, D31). -/
def Obligations.StepRaisesExactlyTheListedErrors : Prop :=
  ∀ s : State, s.run = .running →
    (∀ e, s.stepError = some e → step s = .next { s with run := .halted e }) ∧
    (s.stepError = none → ∃ t, step s = .next t ∧ ¬ t.Halted)

/-- Errors are precise: a step that ends in an error leaves every component but `run` as it was, and consumes no
entropy byte (R232). -/
def Obligations.ErrorsArePrecise : Prop :=
  ∀ s t : State, s.run = .running → step s = .next t → t.Halted → t = { s with run := t.run }

/-- Every instruction in every state, and every step, answers a next state: the core has no traps and the model
refuses and faults nothing here (R100, R230, R233). -/
def Obligations.EveryStepAnswersANextState : Prop :=
  (∀ (i : Instr) (s : State), ∃ t, exec i s = .next t) ∧ (∀ s : State, ∃ t, step s = .next t)

/-- A block that passes 4095 halts with `AddressOutOfRange` of the first address above it, before any write:
`Fx33`, `Fx55`, `Fx65`, and `Dxyn` with `n > 0` (R53, R174 to R177, R191; decisions D6, D16, D31). -/
def Obligations.BlockPastMemoryHalts : Prop :=
  ∀ s : State,
    (∀ x, 4095 < s.i.toNat + 2 → Raises (.ldBcd x) s (.addressOutOfRange (max s.i.toNat 4096))) ∧
    (∀ x : Reg, 4095 < s.i.toNat + x.val →
      Raises (.storeRegs x) s (.addressOutOfRange (max s.i.toNat 4096)) ∧
      Raises (.loadRegs x) s (.addressOutOfRange (max s.i.toNat 4096))) ∧
    (∀ x y n, 0 < n → 4095 < s.i.toNat + n - 1 →
      Raises (.drw x y n) s (.addressOutOfRange (max s.i.toNat 4096)))

/-! ### Invariants and whole-machine rules (10_state.md) -/

/-- A step from any state that meets the invariant of R45 leads to a state that meets it: memory in canonical
form, `pc` at most 0x10FE, live stack entries 0x002 to 0x1000. -/
def Obligations.StepKeepsInvariant : Prop :=
  ∀ s t : State, s.Inv → step s = .next t → t.Inv

/-- The state after a reset meets the invariant, whatever the parameters (R39, R45). -/
def Obligations.ResetMeetsInvariant : Prop :=
  State.reset.Inv ∧ ∀ (p : Params) (e : Entropy), (State.resetWith p e).Inv

/-- Every action of every agent keeps the invariant of R45, and with it that a session before its first step is as
the reset left it but for keys and a loaded ROM (R273, R274; the phase is log entry 8); so every session that
any sequence of actions reaches from the start meets both (R257). -/
def Obligations.ReachableStatesMeetInvariant : Prop :=
  (∀ (a : Action) (c d : Session), c.machine.Inv → act a c = .next d → d.machine.Inv) ∧
  (∀ (a : Action) (c d : Session), c.Inv → act a c = .next d → d.Inv) ∧
  (∀ (actions : List Action) (d : Session), runActions actions Session.start = .next d → d.Inv)

/-- The parameters are fixed for a run: no action changes them (R36, decision D18; log entry 1). -/
def Obligations.ParametersNeverChange : Prop :=
  ∀ (actions : List Action) (c d : Session), runActions actions c = .next d →
    d.machine.params = c.machine.params

/-- The frame of every instruction: it changes no component, no V register and no cell but those that R34, R35 and
R57 list for it, and `run` only by an error or by `Fx0A`. -/
def Obligations.InstructionsWriteOnlyWhatIsListed : Prop :=
  ∀ (i : Instr) (s t : State), exec i s = .next t →
    ChangesOnly (.run :: i.writes s.params) s t ∧ RegsSameBut (i.regsWritten s.params) s t ∧
    MemSameOutside s.i.toNat i.cellsStored s t ∧
    (t.run ≠ s.run → t.Halted ∨ ∃ x, i = .ldVxKey x)

/-- What an instruction writes depends only on `pc`, the parameters and what R34 lists as read: two states that
agree on those get the same values in everything the instruction writes. -/
def Obligations.InstructionsReadOnlyWhatIsListed : Prop :=
  ∀ (i : Instr) (s s' t t' : State), s.memWf = true → s'.memWf = true →
    s'.pc = s.pc → s'.params = s.params → (∀ c ∈ i.reads, c.same s s') →
    (∀ r ∈ i.regsRead s.params, s'.getV r = s.getV r) → i.errorOn s = none →
    exec i s = .next t → exec i s' = .next t' →
    (∀ c ∈ i.writes s.params, c ≠ .v → c ≠ .mem → c.same t t') ∧
    (∀ r ∈ i.regsWritten s.params, t'.getV r = t.getV r) ∧
    (∀ b, s.i.toNat ≤ b → b < s.i.toNat + i.cellsStored → t'.readByte b = t.readByte b)

/-- A step's result is determined but for `Cxnn`: with another entropy source every other step does the same and
leaves that source alone (R109). -/
def Obligations.OnlyRandomReadsEntropy : Prop :=
  ∀ (s t : State) (e : Entropy), (∀ x nn, decode s.word ≠ some (.rnd x nn)) → step s = .next t →
    step { s with entropy := e } = .next { t with entropy := e }

/-- No step writes the keypad (R30), none clears `redraw` (R31), and a step that changes a cell of the framebuffer
leaves `redraw` set (R31, R244). -/
def Obligations.StepLeavesKeypadAndSignalsRedraw : Prop :=
  ∀ s t : State, step s = .next t →
    t.keys = s.keys ∧ (s.redraw = true → t.redraw = true) ∧ (t.fb ≠ s.fb → t.redraw = true)

/-- Stack entries at `sp` and above are not readable by any instruction: changing one changes nothing in the
result but dead entries (R25, R37). -/
def Obligations.DeadStackEntriesAreUnobservable : Prop :=
  ∀ (i : Instr) (s t : State) (k : Fin 16) (a : Word), s.sp.val ≤ k.val → exec i s = .next t →
    ∃ t', exec i { s with stack := s.stack.set k.val a } = .next t' ∧ ChangesOnly [.stack] t t' ∧
      ∀ j : Fin 16, j.val < t.sp.val → t'.stack[j.val] = t.stack[j.val]

/-! ### Control transfer (41_control_flow.md) -/

/-- `1nnn`: `pc` becomes `nnn` exactly, nothing else changes; after a jump to 0xFFF the next fetch raises
`AddressOutOfRange`, and the engine halts with 0xFFF as its payload (R121, R101, R233; the halt is decision D16 and
the payload decision D31, log entry 7). -/
def Obligations.JumpSetsPc : Prop :=
  DecodesRow 0xF000 0x1000 (fun w => .jp (w.extractLsb' 0 12)) ∧
  (∀ (nnn : Addr) (s : State), CompletesWithPc (.jp nnn) s (nnn.setWidth 16)) ∧
  (∀ s t : State, s.run = .running → exec (.jp 0xFFF) s = .next t →
    step t = .next { t with run := .halted (.addressOutOfRange 0xFFF) })

/-- `00EE`: with an entry on the stack `pc` becomes the entry below `sp`, which stays in place, and `sp` falls by
1; with none it halts with `StackUnderflow` (R120; decision D16 for the halt). -/
def Obligations.ReturnPopsPc : Prop :=
  DecodesRow 0xFFFF 0x00EE (fun _ => .ret) ∧
  (∀ (s : State) (k : Fin 16), s.sp.val = k.val + 1 → ∃ t, exec .ret s = .next t ∧
    t.sp.val = k.val ∧ t.pc = s.stack[k.val] ∧ ChangesOnly [.sp, .pc] s t) ∧
  (∀ s : State, s.sp = 0 → Raises .ret s .stackUnderflow)

/-- `2nnn`: with fewer than 16 entries `pc + 2` is pushed and `pc` becomes `nnn`; with 16 it halts with
`StackOverflow` (R122; decision D16 for the halt). -/
def Obligations.CallPushesReturnAddress : Prop :=
  DecodesRow 0xF000 0x2000 (fun w => .call (w.extractLsb' 0 12)) ∧
  (∀ (nnn : Addr) (s : State) (k : Fin 16), s.sp.val = k.val → ∃ t, exec (.call nnn) s = .next t ∧
    t.sp.val = k.val + 1 ∧ t.stack[k.val] = s.pc + 2 ∧
    (∀ j : Fin 16, j ≠ k → t.stack[j.val] = s.stack[j.val]) ∧
    t.pc = nnn.setWidth 16 ∧ ChangesOnly [.stack, .sp, .pc] s t) ∧
  (∀ (nnn : Addr) (s : State), s.sp = 16 → Raises (.call nnn) s .stackOverflow)

/-- A call and, with the stack as the call left it, a return: execution resumes after the call and `sp` is what
it was (95_test_vectors.md E3). -/
def Obligations.CallThenReturnResumes : Prop :=
  ∀ (nnn : Addr) (s t u : State), s.sp.val < 16 → exec (.call nnn) s = .next t →
    u.sp = t.sp → u.stack = t.stack →
    ∃ r, exec .ret u = .next r ∧ r.pc = s.pc + 2 ∧ r.sp = s.sp ∧ ChangesOnly [.sp, .pc] u r

/-- `3xnn`, `4xnn`, `5xy0`, `9xy0`: `pc + 4` when `Vx` equals, or differs from, `nn` or `Vy`, else `pc + 2`; nothing
else changes, and the skipped word is not looked at; a word of families 0x5 and 0x9 with another low nibble is
no instruction (R123 to R126). -/
def Obligations.ConditionalSkips : Prop :=
  (DecodesRow 0xF000 0x3000 (fun w => .seImm (bitsX w) (w.extractLsb' 0 8)) ∧
   DecodesRow 0xF000 0x4000 (fun w => .sneImm (bitsX w) (w.extractLsb' 0 8)) ∧
   DecodesRow 0xF00F 0x5000 (fun w => .seReg (bitsX w) (bitsY w)) ∧
   DecodesRow 0xF00F 0x9000 (fun w => .sneReg (bitsX w) (bitsY w))) ∧
  (∀ w : Word, (w &&& 0xF000 = 0x5000 ∨ w &&& 0xF000 = 0x9000) → w &&& 0xF ≠ 0 → decode w = none) ∧
  ∀ (x y : Reg) (nn : Byte) (s : State),
    CompletesWithPc (.seImm x nn) s (if s.getV x = nn then s.pc + 4 else s.pc + 2) ∧
    CompletesWithPc (.sneImm x nn) s (if s.getV x ≠ nn then s.pc + 4 else s.pc + 2) ∧
    CompletesWithPc (.seReg x y) s (if s.getV x = s.getV y then s.pc + 4 else s.pc + 2) ∧
    CompletesWithPc (.sneReg x y) s (if s.getV x ≠ s.getV y then s.pc + 4 else s.pc + 2)

/-- `Bnnn`: `pc` becomes `V0 + nnn`, not reduced to 12 bits (R127; decision D20). -/
def Obligations.IndexedJumpAddsV0 : Prop :=
  DecodesRow 0xF000 0xB000 (fun w => .jpV0 (w.extractLsb' 0 12)) ∧
  ∀ (nnn : Addr) (s : State), ∃ t, exec (.jpV0 nnn) s = .next t ∧
    t.pc.toNat = (s.getV 0).toNat + nnn.toNat ∧ ChangesOnly [.pc] s t

/-! ### Register loads and the ALU (42_alu.md) -/

/-- `6xnn`, `7xnn`, `8xy0`, `8xy1`, `8xy2`, `8xy3`: `Vx` receives the immediate, the sum modulo 256 with no flag,
the copy, the or, the and, the exclusive or; VF is written only as `Vx` (R141 to R146). -/
def Obligations.LoadsAndLogicWriteVx : Prop :=
  (DecodesRow 0xF000 0x6000 (fun w => .ldImm (bitsX w) (w.extractLsb' 0 8)) ∧
   DecodesRow 0xF000 0x7000 (fun w => .addImm (bitsX w) (w.extractLsb' 0 8)) ∧
   DecodesRow 0xF00F 0x8000 (fun w => .ldReg (bitsX w) (bitsY w)) ∧
   DecodesRow 0xF00F 0x8001 (fun w => .orReg (bitsX w) (bitsY w)) ∧
   DecodesRow 0xF00F 0x8002 (fun w => .andReg (bitsX w) (bitsY w)) ∧
   DecodesRow 0xF00F 0x8003 (fun w => .xorReg (bitsX w) (bitsY w))) ∧
  ∀ (x y : Reg) (nn : Byte) (s : State),
    CompletesWithReg (.ldImm x nn) s x nn ∧
    CompletesWithReg (.addImm x nn) s x (s.getV x + nn) ∧
    CompletesWithReg (.ldReg x y) s x (s.getV y) ∧
    CompletesWithReg (.orReg x y) s x (s.getV x ||| s.getV y) ∧
    CompletesWithReg (.andReg x y) s x (s.getV x &&& s.getV y) ∧
    CompletesWithReg (.xorReg x y) s x (s.getV x ^^^ s.getV y)

/-- `8xy4`, `8xy5`, `8xy7`: `Vx` receives the sum, `Vx - Vy` or `Vy - Vx` modulo 256, and VF, written last, is 1
exactly when the sum exceeds 255, or when there is no borrow; with destination VF the flag stays and the
result is lost (R22, R147, R148, R150). -/
def Obligations.SumsAndDifferencesSetVF : Prop :=
  (DecodesRow 0xF00F 0x8004 (fun w => .addReg (bitsX w) (bitsY w)) ∧
   DecodesRow 0xF00F 0x8005 (fun w => .subReg (bitsX w) (bitsY w)) ∧
   DecodesRow 0xF00F 0x8007 (fun w => .subnReg (bitsX w) (bitsY w))) ∧
  ∀ (x y : Reg) (s : State),
    CompletesWithFlag (.addReg x y) s x (((s.getV x).toNat + (s.getV y).toNat) % 256)
      (255 < (s.getV x).toNat + (s.getV y).toNat) ∧
    CompletesWithFlag (.subReg x y) s x
      ((((s.getV x).toNat : Int) - (s.getV y).toNat) % 256).toNat
      ((s.getV y).toNat ≤ (s.getV x).toNat) ∧
    CompletesWithFlag (.subnReg x y) s x
      ((((s.getV y).toNat : Int) - (s.getV x).toNat) % 256).toNat
      ((s.getV x).toNat ≤ (s.getV y).toNat)

/-- `8xy6` and `8xyE` for both values of `SHIFT_SOURCE`: `Vx` receives the source shifted by one and VF, written
last, the bit shifted out (R149, R151). -/
def Obligations.ShiftsSetTheBitShiftedOut : Prop :=
  (DecodesRow 0xF00F 0x8006 (fun w => .shrReg (bitsX w) (bitsY w)) ∧
   DecodesRow 0xF00F 0x800E (fun w => .shlReg (bitsX w) (bitsY w))) ∧
  ∀ (x y : Reg) (s : State) (src : Byte),
    src = (if s.params.shiftSource = .vy then s.getV y else s.getV x) →
    CompletesWithFlag (.shrReg x y) s x (src >>> 1).toNat (src.getLsbD 0 = true) ∧
    CompletesWithFlag (.shlReg x y) s x (src <<< 1).toNat (src.getLsbD 7 = true)

/-- `Cxnn`: `Vx` receives the next answer of the entropy source masked with `nn`, and exactly one answer is
consumed, even with `nn = 0` (R152, R255; decision D32). The answer is the head of a substituted sequence, or
a free byte of which nothing is known (log entry 2); the statement holds for every value of it. -/
def Obligations.RandomMasksTheNextAnswer : Prop :=
  DecodesRow 0xF000 0xC000 (fun w => .rnd (bitsX w) (w.extractLsb' 0 8)) ∧
  ∀ (x : Reg) (nn : Byte) (s : State), ∃ t, exec (.rnd x nn) s = .next t ∧
    t.getV x = s.entropy.answer &&& nn ∧
    (∀ r rest, s.entropy.fixed = r :: rest → t.getV x = r &&& nn ∧ t.entropy.fixed = rest) ∧
    t.entropy.drawn = s.entropy.drawn + 1 ∧ RegsSameBut [x] s t ∧ t.pc = s.pc + 2 ∧
    ChangesOnly [.v, .entropy, .pc] s t

/-! ### Index register and memory blocks (43_index_memory.md) -/

/-- `Annn`: `I` becomes `nnn`, its upper 4 bits 0 (R170). -/
def Obligations.LoadIndexImmediate : Prop :=
  DecodesRow 0xF000 0xA000 (fun w => .ldI (w.extractLsb' 0 12)) ∧
  ∀ (nnn : Addr) (s : State), ∃ t, exec (.ldI nnn) s = .next t ∧ t.i = nnn.setWidth 16 ∧
    t.pc = s.pc + 2 ∧ ChangesOnly [.i, .pc] s t

/-- `Fx1E`: `I` becomes `(I + Vx) mod 65536`; with `FX1E_VF_OVERFLOW = OFF` nothing but `I` and `pc` changes, with
`ON` VF, written last, becomes 1 exactly when the old `I` plus the old `Vx` exceeds 0xFFF, else 0 (R171, R172;
decision D11, the 0 case from general knowledge). -/
def Obligations.AddToIndexWraps : Prop :=
  DecodesRow 0xF0FF 0xF01E (fun w => .addI (bitsX w)) ∧
  ∀ (x : Reg) (s : State), ∃ t, exec (.addI x) s = .next t ∧
    t.i.toNat = (s.i.toNat + (s.getV x).toNat) % 65536 ∧ t.pc = s.pc + 2 ∧
    (s.params.indexOverflow = .off → ChangesOnly [.i, .pc] s t) ∧
    (s.params.indexOverflow = .on →
      t.getV 15 = (if 0xFFF < s.i.toNat + (s.getV x).toNat then 1 else 0) ∧
      RegsSameBut [15] s t ∧ ChangesOnly [.i, .v, .pc] s t)

/-- `Fx29`: `I` becomes `5 * Vx`, with no reduction of `Vx` to a digit (R173; decision D28). -/
def Obligations.FontAddressIsFiveTimesVx : Prop :=
  DecodesRow 0xF0FF 0xF029 (fun w => .ldFont (bitsX w)) ∧
  ∀ (x : Reg) (s : State), ∃ t, exec (.ldFont x) s = .next t ∧
    t.i.toNat = 5 * (s.getV x).toNat ∧ t.pc = s.pc + 2 ∧ ChangesOnly [.i, .pc] s t

/-- `Fx33` with `I + 2 ≤ 4095`: the three cells at `I` hold the hundreds, tens and ones of `Vx`, whose decimal value
is `Vx`; every other cell, `I` and every register keep their values (R174; decision D6 for the bound). -/
def Obligations.DecimalDigitsAreStored : Prop :=
  DecodesRow 0xF0FF 0xF033 (fun w => .ldBcd (bitsX w)) ∧
  ∀ (x : Reg) (s : State), s.memWf = true → s.i.toNat + 2 ≤ 4095 → ∃ t, exec (.ldBcd x) s = .next t ∧
    (t.readByte s.i.toNat).toNat = (s.getV x).toNat / 100 ∧
    (t.readByte (s.i.toNat + 1)).toNat = (s.getV x).toNat / 10 % 10 ∧
    (t.readByte (s.i.toNat + 2)).toNat = (s.getV x).toNat % 10 ∧
    (t.readByte s.i.toNat).toNat * 100 + (t.readByte (s.i.toNat + 1)).toNat * 10 +
      (t.readByte (s.i.toNat + 2)).toNat = (s.getV x).toNat ∧
    MemSameOutside s.i.toNat 3 s t ∧ t.memWf = true ∧ t.pc = s.pc + 2 ∧ ChangesOnly [.mem, .pc] s t

/-- `Fx55` with `I + x ≤ 4095`: cell `I + k` holds `Vk` for every `k ≤ x`, every other cell and every register keep
their values, and `I` ends just past the block (R175; decision D6 for the bound). -/
def Obligations.RegisterBlockIsStored : Prop :=
  DecodesRow 0xF0FF 0xF055 (fun w => .storeRegs (bitsX w)) ∧
  ∀ (x : Reg) (s : State), s.memWf = true → s.i.toNat + x.val ≤ 4095 →
    ∃ t, exec (.storeRegs x) s = .next t ∧
      (∀ k : Reg, k ≤ x → t.readByte (s.i.toNat + k.val) = s.getV k) ∧
      MemSameOutside s.i.toNat (x.val + 1) s t ∧ t.memWf = true ∧
      t.i.toNat = s.i.toNat + x.val + 1 ∧ t.pc = s.pc + 2 ∧ ChangesOnly [.mem, .i, .pc] s t

/-- `Fx65` with `I + x ≤ 4095`: `Vk` holds cell `I + k` for every `k ≤ x`, every other register and all of memory
keep their values, and `I` ends just past the block (R176; decision D6 for the bound). -/
def Obligations.RegisterBlockIsLoaded : Prop :=
  DecodesRow 0xF0FF 0xF065 (fun w => .loadRegs (bitsX w)) ∧
  ∀ (x : Reg) (s : State), s.i.toNat + x.val ≤ 4095 →
    ∃ t, exec (.loadRegs x) s = .next t ∧
      (∀ k : Reg, k ≤ x → t.getV k = s.readByte (s.i.toNat + k.val)) ∧
      (∀ k : Reg, x < k → t.getV k = s.getV k) ∧
      t.i.toNat = s.i.toNat + x.val + 1 ∧ t.pc = s.pc + 2 ∧ ChangesOnly [.v, .i, .pc] s t

/-- Storing V0..Vx and loading them back from the same `I` restores them, whatever the registers held in between,
and `I` after each is the same (95_test_vectors.md E6). -/
def Obligations.StoreThenLoadRestoresRegisters : Prop :=
  ∀ (x : Reg) (s t u : State), s.memWf = true → s.i.toNat + x.val ≤ 4095 →
    exec (.storeRegs x) s = .next t → u.mem = t.mem → u.params = t.params → u.i = s.i →
    ∃ r, exec (.loadRegs x) u = .next r ∧ (∀ k : Reg, k ≤ x → r.getV k = s.getV k) ∧ r.i = t.i

/-! ### Framebuffer (44_display.md) -/

/-- `00E0`: every cell becomes 0 and `redraw` is set, even on a clear framebuffer; VF is not written (R190;
decision D23). -/
def Obligations.ClearSetsEveryCellToZero : Prop :=
  DecodesRow 0xFFFF 0x00E0 (fun _ => .cls) ∧
  ∀ s : State, ∃ t, exec .cls s = .next t ∧
    (∀ px py, Framebuffer.cell t.fb px py = false) ∧ t.redraw = true ∧ t.pc = s.pc + 2 ∧
    ChangesOnly [.fb, .redraw, .pc] s t

/-- `Dxyn` with its rows in memory: exactly the cells under a set sprite bit flip, both coordinates wrapping; VF,
written last, is 1 exactly when one of them was 1; `redraw` is set; `I`, memory and every other register
keep their values (R191 to R195, R197; the bit order of R192 is from general knowledge, decision D12, log
entry 6; decision D6 for the bound, log entry 12; `n = 0` is decision D13 and `redraw` where no cell changes is
decision D23, both log entry 17). -/
def Obligations.DrawFlipsExactlyTheSpriteCells : Prop :=
  DecodesRow 0xF000 0xD000 (fun w => .drw (bitsX w) (bitsY w) (w.extractLsb' 0 4).toNat) ∧
  ∀ (x y : Reg) (n : Nat) (s : State), n ≤ 15 → (n = 0 ∨ s.i.toNat + n - 1 ≤ 4095) →
    ∃ t, exec (.drw x y n) s = .next t ∧
      (∀ px py, px < 64 → py < 32 →
        (SpriteCovers s x y n px py → Framebuffer.cell t.fb px py = !Framebuffer.cell s.fb px py) ∧
        (¬ SpriteCovers s x y n px py → Framebuffer.cell t.fb px py = Framebuffer.cell s.fb px py)) ∧
      (t.getV 15 = 1 ↔ ∃ px py, px < 64 ∧ py < 32 ∧ SpriteCovers s x y n px py ∧
        Framebuffer.cell s.fb px py = true) ∧
      (t.getV 15 = 0 ∨ t.getV 15 = 1) ∧
      t.redraw = true ∧ RegsSameBut [15] s t ∧ t.pc = s.pc + 2 ∧ ChangesOnly [.v, .fb, .redraw, .pc] s t

/-- Drawing the same sprite twice at the same coordinates restores every cell, and the second draw reports VF = 1
exactly when a set sprite bit falls on a cell that was 0 before the first (R198, 90_conflicts.md C3). -/
def Obligations.DrawingTwiceRestores : Prop :=
  ∀ (x y : Reg) (n : Nat) (s t : State), n ≤ 15 → (n = 0 ∨ s.i.toNat + n - 1 ≤ 4095) →
    exec (.drw x y n) s = .next t → t.getV x = s.getV x → t.getV y = s.getV y →
    ∃ u, exec (.drw x y n) t = .next u ∧ u.fb = s.fb ∧
      (u.getV 15 = 1 ↔ ∃ px py, px < 64 ∧ py < 32 ∧ SpriteCovers s x y n px py ∧
        Framebuffer.cell s.fb px py = false)

/-! ### Keypad and timers (45_keypad_timers.md) -/

/-- `Ex9E` and `ExA1`: with a key code up to 0xF, `pc + 4` when that key is down, or up, else `pc + 2`, and nothing
else changes; with a larger code `KeyOutOfRange` (R210, R211; decisions D14 and D16 for the error). -/
def Obligations.SkipsOnKey : Prop :=
  DecodesRow 0xF0FF 0xE09E (fun w => .skp (bitsX w)) ∧
  DecodesRow 0xF0FF 0xE0A1 (fun w => .sknp (bitsX w)) ∧
  (∀ (x : Reg) (k : Key) (s : State), (s.getV x).toNat = k.val →
    CompletesWithPc (.skp x) s (if s.keys[k.val] = true then s.pc + 4 else s.pc + 2) ∧
    CompletesWithPc (.sknp x) s (if s.keys[k.val] = false then s.pc + 4 else s.pc + 2)) ∧
  (∀ (x : Reg) (s : State), 0xF < (s.getV x).toNat →
    Raises (.skp x) s (.keyOutOfRange (s.getV x)) ∧ Raises (.sknp x) s (.keyOutOfRange (s.getV x)))

/-- `Fx07`, `Fx15`, `Fx18`: `Vx` receives `DT`, `DT` receives `Vx`, `ST` receives `Vx`; nothing else changes; the next
tick after `Fx15` gives one less, and the sound output follows `Fx18` at once (R212, R215, R216). -/
def Obligations.TimerMoves : Prop :=
  (DecodesRow 0xF0FF 0xF007 (fun w => .ldVxDt (bitsX w)) ∧
   DecodesRow 0xF0FF 0xF015 (fun w => .ldDtVx (bitsX w)) ∧
   DecodesRow 0xF0FF 0xF018 (fun w => .ldStVx (bitsX w))) ∧
  ∀ (x : Reg) (s : State),
    CompletesWithReg (.ldVxDt x) s x s.dt ∧
    (∃ t, exec (.ldDtVx x) s = .next t ∧ t.dt = s.getV x ∧ t.pc = s.pc + 2 ∧
      ChangesOnly [.dt, .pc] s t ∧
      ∀ p, ∃ d, act .tick { machine := t, phase := p } = .next d ∧
        d.machine.dt.toNat = (s.getV x).toNat - 1) ∧
    (∃ t, exec (.ldStVx x) s = .next t ∧ t.st = s.getV x ∧ t.pc = s.pc + 2 ∧
      ChangesOnly [.st, .pc] s t ∧ (t.soundActive = true ↔ 0 < (s.getV x).toNat))

/-- `Fx0A`: the engine waits for a key for `Vx`, with `pc` already advanced and nothing else changed (R213;
decision D15). -/
def Obligations.KeyWaitStarts : Prop :=
  DecodesRow 0xF0FF 0xF00A (fun w => .ldVxKey (bitsX w)) ∧
  ∀ (x : Reg) (s : State), ∃ t, exec (.ldVxKey x) s = .next t ∧
    t.run = .waiting x ∧ t.pc = s.pc + 2 ∧ ChangesOnly [.run, .pc] s t

/-- A key-down edge of key `k`: `K[k]` alone of the keys changes; a waiting engine resumes with the key code in
`Vx`; otherwise nothing else changes and the edge is not remembered. A key already down gives no edge (R214;
decisions D15 and D26). -/
def Obligations.KeyEdgeResumesAWait : Prop :=
  ∀ (k : Key) (s : State) (p : Phase),
    (s.keys[k.val] = true → act (.keyDown k) { machine := s, phase := p } = .refused (.keyAlreadyDown k)) ∧
    (s.keys[k.val] = false → ∃ t,
      act (.keyDown k) { machine := s, phase := p } = .next { machine := t, phase := p } ∧
      t.keys[k.val] = true ∧ (∀ j : Key, j ≠ k → t.keys[j.val] = s.keys[j.val]) ∧
      (∀ x, s.run = .waiting x → t.run = .running ∧ (t.getV x).toNat = k.val ∧ RegsSameBut [x] s t ∧
        ChangesOnly [.keys, .v, .run] s t) ∧
      (¬ s.Waiting → ChangesOnly [.keys] s t))

/-- A key-up action releases one key that is down and changes nothing else (R252; decision D26). -/
def Obligations.KeyUpReleasesOneKey : Prop :=
  ∀ (k : Key) (s : State) (p : Phase),
    (s.keys[k.val] = false → act (.keyUp k) { machine := s, phase := p } = .refused (.keyAlreadyUp k)) ∧
    (s.keys[k.val] = true → ∃ t,
      act (.keyUp k) { machine := s, phase := p } = .next { machine := t, phase := p } ∧
      t.keys[k.val] = false ∧ (∀ j : Key, j ≠ k → t.keys[j.val] = s.keys[j.val]) ∧ ChangesOnly [.keys] s t)

/-! ### The agents beside the engine (60_exceptions.md, 70_reset_and_hazards.md) -/

/-- A tick decrements each timer that is above 0 and touches nothing else, in every run state; `n` ticks with no
other action take `n` from each timer, never below 0 (R240). -/
def Obligations.TicksCountTimersDown : Prop :=
  (∀ (s : State) (p : Phase), ∃ t,
    act .tick { machine := s, phase := p } = .next { machine := t, phase := p } ∧
    t.dt.toNat = (if 0 < s.dt.toNat then s.dt.toNat - 1 else 0) ∧
    t.st.toNat = (if 0 < s.st.toNat then s.st.toNat - 1 else 0) ∧ ChangesOnly [.dt, .st] s t) ∧
  (∀ (n : Nat) (s : State) (p : Phase), ∃ t,
    runActions (List.replicate n .tick) { machine := s, phase := p } = .next { machine := t, phase := p } ∧
    t.dt.toNat = s.dt.toNat - n ∧ t.st.toNat = s.st.toNat - n ∧ ChangesOnly [.dt, .st] s t)

/-- The sound output follows `ST` at every instant: on after a write of a non-zero value, off after a write of 0
and after the tick that brings `ST` to 0 (R38, R243; decision D22). -/
def Obligations.SoundFollowsSoundTimer : Prop :=
  (∀ s : State, s.soundActive = true ↔ s.st ≠ 0) ∧
  (∀ (x : Reg) (s t : State), exec (.ldStVx x) s = .next t →
    (t.soundActive = true ↔ s.getV x ≠ 0)) ∧
  (∀ s : State, s.tick.soundActive = true ↔ 1 < s.st.toNat)

/-- The wait state is left only by a key-down edge or a reset: under every other action the engine keeps waiting for
the same register, and no action but a reset changes anything but timers, keys, `redraw`, `run` and that
register; a step changes nothing; ticks are enabled and count the timers down, and the renderer may consume
(R242, R261). `Session.Inv` holds in every session a run reaches (`ReachableStatesMeetInvariant`). -/
def Obligations.WaitEndsOnlyByKeyOrReset : Prop :=
  ∀ (c : Session) (x : Reg), c.Inv → c.machine.run = .waiting x →
    (∀ (a : Action) (d : Session), act a c = .next d →
      ((∃ k, a = .keyDown k) ∨ a = .reset ∨ d.machine.run = .waiting x) ∧
      (a ≠ .reset → ChangesOnly [.dt, .st, .keys, .redraw, .v, .run] c.machine d.machine ∧
        RegsSameBut [x] c.machine d.machine)) ∧
    act .step c = .next c ∧
    (∃ t, act .tick c = .next { c with machine := t } ∧ t.dt.toNat = c.machine.dt.toNat - 1 ∧
      t.st.toNat = c.machine.st.toNat - 1 ∧ ChangesOnly [.dt, .st] c.machine t) ∧
    (c.machine.redraw = true → ∃ t, act .consume c = .next { c with machine := t } ∧
      ChangesOnly [.redraw] c.machine t)

/-- After an error only a reset moves the engine: under every other action it stays halted with the same error and
only timers, keys and `redraw` can change (R234, R235; decision D16). `Session.Inv` holds in every session a run
reaches (`ReachableStatesMeetInvariant`). -/
def Obligations.HaltEndsOnlyByReset : Prop :=
  ∀ (a : Action) (c d : Session) (e : Error), c.Inv → c.machine.run = .halted e → act a c = .next d →
    a = .reset ∨
      (d.machine.run = .halted e ∧ ChangesOnly [.dt, .st, .keys, .redraw] c.machine d.machine)

/-- The renderer's consume action is enabled exactly when `redraw` is set; it clears `redraw`, changes nothing else,
and the frame it copies is the framebuffer, row-major (R251). -/
def Obligations.ConsumeClearsRedraw : Prop :=
  ∀ (s : State) (p : Phase),
    (s.redraw = false → act .consume { machine := s, phase := p } = .refused .nothingToRedraw) ∧
    (s.redraw = true → ∃ t,
      act .consume { machine := s, phase := p } = .next { machine := t, phase := p } ∧
      t.redraw = false ∧ ChangesOnly [.redraw] s t) ∧
    s.frame.length = 2048 ∧
    (∀ px py : Nat, px < 64 → py < 32 → s.frame[py * 64 + px]? = some (Framebuffer.cell s.fb px py))

/-- Reset sets every component to its reset value in every run state: `pc` at 0x200 and the font in place, as the
source says, and the zeros of R39, which are the spec's own choice (R39, R270; decisions D2 and D4, log entry
4); the parameters and the entropy source stay, and the session is fresh (log entry 8). -/
def Obligations.ResetRestoresEveryComponent : Prop :=
  ∀ (s : State) (p : Phase), ∃ t,
    act .reset { machine := s, phase := p } = .next { machine := t, phase := .fresh } ∧ t.pc = 0x200 ∧
    (∀ a : Nat, ∀ h : a < 80, t.readByte a = s.params.font[a]) ∧ (∀ a : Nat, 80 ≤ a → t.readByte a = 0) ∧
    (∀ r, t.getV r = 0) ∧ t.i = 0 ∧ t.sp = 0 ∧ (∀ k : Fin 16, t.stack[k.val] = 0) ∧ t.dt = 0 ∧ t.st = 0 ∧
    (∀ px py, Framebuffer.cell t.fb px py = false) ∧ (∀ k : Key, t.keys[k.val] = false) ∧
    t.redraw = false ∧ t.run = .running ∧ t.params = s.params ∧ t.entropy = s.entropy

/-- A step with nothing loaded fetches 0x0000 at 0x200 and halts with `UnknownOpcode(0x0000)` (R272; the zeros are
decision D4). -/
def Obligations.StepAfterBareResetHalts : Prop :=
  step State.reset = .next { State.reset with run := .halted (.unknownOpcode 0x0000) }

/-- The ROM load copies byte `i` to `mem[0x200 + i]` and touches nothing else; a ROM of more than 3584 bytes fails
with `RomTooLarge` and no state results (R273). -/
def Obligations.RomLoadCopiesTheRom : Prop :=
  ∀ (s : State) (rom : List Byte), s.memWf = true →
    (rom.length ≤ 3584 → ∃ t, s.loadRom rom = .next t ∧
      (∀ k : Nat, ∀ h : k < rom.length, t.readByte (0x200 + k) = rom[k]) ∧
      MemSameOutside 0x200 rom.length s t ∧ ChangesOnly [.mem] s t) ∧
    (3584 < rom.length → s.loadRom rom = .fault .romTooLarge)

/-- In a fresh session a load does what the ROM loader does, with a new state or with `RomTooLarge`, and the session is
then loaded; in a session of any other phase, whatever its state, it has no move. A session becomes fresh by a
reset alone, and stays so only under actions that are neither a step nor a load; after a step it is started. In
any run a reset stands between a step, or a load, and a later load (R274, R275; decision D24; one load for each reset: R41, 90_conflicts.md C4; the phase is log entry 8). -/
def Obligations.RomLoadOnlyAtBoot : Prop :=
  (∀ (s t : State) (rom : List Byte), s.loadRom rom = .next t →
    act (.load rom) { machine := s, phase := .fresh } = .next { machine := t, phase := .loaded }) ∧
  (∀ (s : State) (rom : List Byte), s.loadRom rom = .fault .romTooLarge →
    act (.load rom) { machine := s, phase := .fresh } = .fault .romTooLarge) ∧
  (∀ (c : Session) (rom : List Byte), c.phase ≠ .fresh → act (.load rom) c = .refused .loadOutsideBoot) ∧
  (∀ (a : Action) (c d : Session), act a c = .next d →
    (d.phase = .fresh ↔ a = .reset ∨ (c.phase = .fresh ∧ a ≠ .step ∧ ∀ rom, a ≠ .load rom)) ∧
    (d.phase = .started ↔ a = .step ∨ (c.phase = .started ∧ a ≠ .reset))) ∧
  (∀ (before between : List Action) (first : Action) (rom : List Byte) (c d : Session),
    first = .step ∨ (∃ earlier, first = .load earlier) →
    runActions (before ++ first :: between ++ [.load rom]) c = .next d → .reset ∈ between)

/-- The first instruction executed after reset and ROM load is the word at 0x200 and 0x201 (R40). -/
def Obligations.BootRunsTheFirstRomWord : Prop :=
  State.reset.pc = 0x200 ∧
  ∀ (hi lo : Byte) (rest : List Byte) (d : Session),
    act (.load (hi :: lo :: rest)) Session.start = .next d →
    d.machine.pc = 0x200 ∧ d.machine.word = hi.setWidth 16 <<< 8 ||| lo.setWidth 16 ∧
    ∀ i, decode (hi.setWidth 16 <<< 8 ||| lo.setWidth 16) = some i → step d.machine = exec i d.machine
end

