-- ==== Sys2Proof/Laws/State.lean ====
section
/-! SUPPORT. One lemma per field per named update of the state, true by rfl, so that no proof unfolds a record
update; and the updates that are another update under a second name. -/

namespace Sys2Proof.Machine

variable (s : State)

/-! ### `State.setV` -/

@[simp] theorem State.setV_mem (x : Reg) (u : Byte) : (s.setV x u).mem = s.mem := rfl
@[simp] theorem State.setV_v (x : Reg) (u : Byte) : (s.setV x u).v = s.v.set x.val u := rfl
@[simp] theorem State.setV_i (x : Reg) (u : Byte) : (s.setV x u).i = s.i := rfl
@[simp] theorem State.setV_pc (x : Reg) (u : Byte) : (s.setV x u).pc = s.pc := rfl
@[simp] theorem State.setV_stack (x : Reg) (u : Byte) : (s.setV x u).stack = s.stack := rfl
@[simp] theorem State.setV_sp (x : Reg) (u : Byte) : (s.setV x u).sp = s.sp := rfl
@[simp] theorem State.setV_dt (x : Reg) (u : Byte) : (s.setV x u).dt = s.dt := rfl
@[simp] theorem State.setV_st (x : Reg) (u : Byte) : (s.setV x u).st = s.st := rfl
@[simp] theorem State.setV_fb (x : Reg) (u : Byte) : (s.setV x u).fb = s.fb := rfl
@[simp] theorem State.setV_keys (x : Reg) (u : Byte) : (s.setV x u).keys = s.keys := rfl
@[simp] theorem State.setV_redraw (x : Reg) (u : Byte) : (s.setV x u).redraw = s.redraw := rfl
@[simp] theorem State.setV_run (x : Reg) (u : Byte) : (s.setV x u).run = s.run := rfl
@[simp] theorem State.setV_params (x : Reg) (u : Byte) : (s.setV x u).params = s.params := rfl
@[simp] theorem State.setV_entropy (x : Reg) (u : Byte) : (s.setV x u).entropy = s.entropy := rfl

/-! ### `State.setI` -/

@[simp] theorem State.setI_mem (a : Word) : (s.setI a).mem = s.mem := rfl
@[simp] theorem State.setI_v (a : Word) : (s.setI a).v = s.v := rfl
@[simp] theorem State.setI_i (a : Word) : (s.setI a).i = a := rfl
@[simp] theorem State.setI_pc (a : Word) : (s.setI a).pc = s.pc := rfl
@[simp] theorem State.setI_stack (a : Word) : (s.setI a).stack = s.stack := rfl
@[simp] theorem State.setI_sp (a : Word) : (s.setI a).sp = s.sp := rfl
@[simp] theorem State.setI_dt (a : Word) : (s.setI a).dt = s.dt := rfl
@[simp] theorem State.setI_st (a : Word) : (s.setI a).st = s.st := rfl
@[simp] theorem State.setI_fb (a : Word) : (s.setI a).fb = s.fb := rfl
@[simp] theorem State.setI_keys (a : Word) : (s.setI a).keys = s.keys := rfl
@[simp] theorem State.setI_redraw (a : Word) : (s.setI a).redraw = s.redraw := rfl
@[simp] theorem State.setI_run (a : Word) : (s.setI a).run = s.run := rfl
@[simp] theorem State.setI_params (a : Word) : (s.setI a).params = s.params := rfl
@[simp] theorem State.setI_entropy (a : Word) : (s.setI a).entropy = s.entropy := rfl

/-! ### `State.setDT` -/

@[simp] theorem State.setDT_mem (u : Byte) : (s.setDT u).mem = s.mem := rfl
@[simp] theorem State.setDT_v (u : Byte) : (s.setDT u).v = s.v := rfl
@[simp] theorem State.setDT_i (u : Byte) : (s.setDT u).i = s.i := rfl
@[simp] theorem State.setDT_pc (u : Byte) : (s.setDT u).pc = s.pc := rfl
@[simp] theorem State.setDT_stack (u : Byte) : (s.setDT u).stack = s.stack := rfl
@[simp] theorem State.setDT_sp (u : Byte) : (s.setDT u).sp = s.sp := rfl
@[simp] theorem State.setDT_dt (u : Byte) : (s.setDT u).dt = u := rfl
@[simp] theorem State.setDT_st (u : Byte) : (s.setDT u).st = s.st := rfl
@[simp] theorem State.setDT_fb (u : Byte) : (s.setDT u).fb = s.fb := rfl
@[simp] theorem State.setDT_keys (u : Byte) : (s.setDT u).keys = s.keys := rfl
@[simp] theorem State.setDT_redraw (u : Byte) : (s.setDT u).redraw = s.redraw := rfl
@[simp] theorem State.setDT_run (u : Byte) : (s.setDT u).run = s.run := rfl
@[simp] theorem State.setDT_params (u : Byte) : (s.setDT u).params = s.params := rfl
@[simp] theorem State.setDT_entropy (u : Byte) : (s.setDT u).entropy = s.entropy := rfl

/-! ### `State.setST` -/

@[simp] theorem State.setST_mem (u : Byte) : (s.setST u).mem = s.mem := rfl
@[simp] theorem State.setST_v (u : Byte) : (s.setST u).v = s.v := rfl
@[simp] theorem State.setST_i (u : Byte) : (s.setST u).i = s.i := rfl
@[simp] theorem State.setST_pc (u : Byte) : (s.setST u).pc = s.pc := rfl
@[simp] theorem State.setST_stack (u : Byte) : (s.setST u).stack = s.stack := rfl
@[simp] theorem State.setST_sp (u : Byte) : (s.setST u).sp = s.sp := rfl
@[simp] theorem State.setST_dt (u : Byte) : (s.setST u).dt = s.dt := rfl
@[simp] theorem State.setST_st (u : Byte) : (s.setST u).st = u := rfl
@[simp] theorem State.setST_fb (u : Byte) : (s.setST u).fb = s.fb := rfl
@[simp] theorem State.setST_keys (u : Byte) : (s.setST u).keys = s.keys := rfl
@[simp] theorem State.setST_redraw (u : Byte) : (s.setST u).redraw = s.redraw := rfl
@[simp] theorem State.setST_run (u : Byte) : (s.setST u).run = s.run := rfl
@[simp] theorem State.setST_params (u : Byte) : (s.setST u).params = s.params := rfl
@[simp] theorem State.setST_entropy (u : Byte) : (s.setST u).entropy = s.entropy := rfl

/-! ### `State.setKey` -/

@[simp] theorem State.setKey_mem (k : Key) (b : Bool) : (s.setKey k b).mem = s.mem := rfl
@[simp] theorem State.setKey_v (k : Key) (b : Bool) : (s.setKey k b).v = s.v := rfl
@[simp] theorem State.setKey_i (k : Key) (b : Bool) : (s.setKey k b).i = s.i := rfl
@[simp] theorem State.setKey_pc (k : Key) (b : Bool) : (s.setKey k b).pc = s.pc := rfl
@[simp] theorem State.setKey_stack (k : Key) (b : Bool) : (s.setKey k b).stack = s.stack := rfl
@[simp] theorem State.setKey_sp (k : Key) (b : Bool) : (s.setKey k b).sp = s.sp := rfl
@[simp] theorem State.setKey_dt (k : Key) (b : Bool) : (s.setKey k b).dt = s.dt := rfl
@[simp] theorem State.setKey_st (k : Key) (b : Bool) : (s.setKey k b).st = s.st := rfl
@[simp] theorem State.setKey_fb (k : Key) (b : Bool) : (s.setKey k b).fb = s.fb := rfl
@[simp] theorem State.setKey_keys (k : Key) (b : Bool) : (s.setKey k b).keys = s.keys.set k.val b := rfl
@[simp] theorem State.setKey_redraw (k : Key) (b : Bool) : (s.setKey k b).redraw = s.redraw := rfl
@[simp] theorem State.setKey_run (k : Key) (b : Bool) : (s.setKey k b).run = s.run := rfl
@[simp] theorem State.setKey_params (k : Key) (b : Bool) : (s.setKey k b).params = s.params := rfl
@[simp] theorem State.setKey_entropy (k : Key) (b : Bool) : (s.setKey k b).entropy = s.entropy := rfl

/-! ### `State.setRun` -/

@[simp] theorem State.setRun_mem (r : RunState) : (s.setRun r).mem = s.mem := rfl
@[simp] theorem State.setRun_v (r : RunState) : (s.setRun r).v = s.v := rfl
@[simp] theorem State.setRun_i (r : RunState) : (s.setRun r).i = s.i := rfl
@[simp] theorem State.setRun_pc (r : RunState) : (s.setRun r).pc = s.pc := rfl
@[simp] theorem State.setRun_stack (r : RunState) : (s.setRun r).stack = s.stack := rfl
@[simp] theorem State.setRun_sp (r : RunState) : (s.setRun r).sp = s.sp := rfl
@[simp] theorem State.setRun_dt (r : RunState) : (s.setRun r).dt = s.dt := rfl
@[simp] theorem State.setRun_st (r : RunState) : (s.setRun r).st = s.st := rfl
@[simp] theorem State.setRun_fb (r : RunState) : (s.setRun r).fb = s.fb := rfl
@[simp] theorem State.setRun_keys (r : RunState) : (s.setRun r).keys = s.keys := rfl
@[simp] theorem State.setRun_redraw (r : RunState) : (s.setRun r).redraw = s.redraw := rfl
@[simp] theorem State.setRun_run (r : RunState) : (s.setRun r).run = r := rfl
@[simp] theorem State.setRun_params (r : RunState) : (s.setRun r).params = s.params := rfl
@[simp] theorem State.setRun_entropy (r : RunState) : (s.setRun r).entropy = s.entropy := rfl

/-! ### `State.setFB` -/

@[simp] theorem State.setFB_mem (fb : Framebuffer) : (s.setFB fb).mem = s.mem := rfl
@[simp] theorem State.setFB_v (fb : Framebuffer) : (s.setFB fb).v = s.v := rfl
@[simp] theorem State.setFB_i (fb : Framebuffer) : (s.setFB fb).i = s.i := rfl
@[simp] theorem State.setFB_pc (fb : Framebuffer) : (s.setFB fb).pc = s.pc := rfl
@[simp] theorem State.setFB_stack (fb : Framebuffer) : (s.setFB fb).stack = s.stack := rfl
@[simp] theorem State.setFB_sp (fb : Framebuffer) : (s.setFB fb).sp = s.sp := rfl
@[simp] theorem State.setFB_dt (fb : Framebuffer) : (s.setFB fb).dt = s.dt := rfl
@[simp] theorem State.setFB_st (fb : Framebuffer) : (s.setFB fb).st = s.st := rfl
@[simp] theorem State.setFB_fb (fb : Framebuffer) : (s.setFB fb).fb = fb := rfl
@[simp] theorem State.setFB_keys (fb : Framebuffer) : (s.setFB fb).keys = s.keys := rfl
@[simp] theorem State.setFB_redraw (fb : Framebuffer) : (s.setFB fb).redraw = true := rfl
@[simp] theorem State.setFB_run (fb : Framebuffer) : (s.setFB fb).run = s.run := rfl
@[simp] theorem State.setFB_params (fb : Framebuffer) : (s.setFB fb).params = s.params := rfl
@[simp] theorem State.setFB_entropy (fb : Framebuffer) : (s.setFB fb).entropy = s.entropy := rfl

/-! ### `State.drawn` -/

@[simp] theorem State.drawn_mem : (s.drawn).mem = s.mem := rfl
@[simp] theorem State.drawn_v : (s.drawn).v = s.v := rfl
@[simp] theorem State.drawn_i : (s.drawn).i = s.i := rfl
@[simp] theorem State.drawn_pc : (s.drawn).pc = s.pc := rfl
@[simp] theorem State.drawn_stack : (s.drawn).stack = s.stack := rfl
@[simp] theorem State.drawn_sp : (s.drawn).sp = s.sp := rfl
@[simp] theorem State.drawn_dt : (s.drawn).dt = s.dt := rfl
@[simp] theorem State.drawn_st : (s.drawn).st = s.st := rfl
@[simp] theorem State.drawn_fb : (s.drawn).fb = s.fb := rfl
@[simp] theorem State.drawn_keys : (s.drawn).keys = s.keys := rfl
@[simp] theorem State.drawn_redraw : (s.drawn).redraw = s.redraw := rfl
@[simp] theorem State.drawn_run : (s.drawn).run = s.run := rfl
@[simp] theorem State.drawn_params : (s.drawn).params = s.params := rfl
@[simp] theorem State.drawn_entropy : (s.drawn).entropy = s.entropy.advance := rfl

/-! ### `State.finish` -/

@[simp] theorem State.finish_mem (o : PcOutcome) : (s.finish o).mem = s.mem := rfl
@[simp] theorem State.finish_v (o : PcOutcome) : (s.finish o).v = s.v := rfl
@[simp] theorem State.finish_i (o : PcOutcome) : (s.finish o).i = s.i := rfl
@[simp] theorem State.finish_pc (o : PcOutcome) : (s.finish o).pc = pcAfter s.pc o := rfl
@[simp] theorem State.finish_stack (o : PcOutcome) : (s.finish o).stack = s.stack := rfl
@[simp] theorem State.finish_sp (o : PcOutcome) : (s.finish o).sp = s.sp := rfl
@[simp] theorem State.finish_dt (o : PcOutcome) : (s.finish o).dt = s.dt := rfl
@[simp] theorem State.finish_st (o : PcOutcome) : (s.finish o).st = s.st := rfl
@[simp] theorem State.finish_fb (o : PcOutcome) : (s.finish o).fb = s.fb := rfl
@[simp] theorem State.finish_keys (o : PcOutcome) : (s.finish o).keys = s.keys := rfl
@[simp] theorem State.finish_redraw (o : PcOutcome) : (s.finish o).redraw = s.redraw := rfl
@[simp] theorem State.finish_run (o : PcOutcome) : (s.finish o).run = s.run := rfl
@[simp] theorem State.finish_params (o : PcOutcome) : (s.finish o).params = s.params := rfl
@[simp] theorem State.finish_entropy (o : PcOutcome) : (s.finish o).entropy = s.entropy := rfl

/-! ### `State.writeByte` -/

@[simp] theorem State.writeByte_mem (a : Nat) (u : Byte) : (s.writeByte a u).mem = Memory.store (unlistedByte s.params.font a) a u s.mem := rfl
@[simp] theorem State.writeByte_v (a : Nat) (u : Byte) : (s.writeByte a u).v = s.v := rfl
@[simp] theorem State.writeByte_i (a : Nat) (u : Byte) : (s.writeByte a u).i = s.i := rfl
@[simp] theorem State.writeByte_pc (a : Nat) (u : Byte) : (s.writeByte a u).pc = s.pc := rfl
@[simp] theorem State.writeByte_stack (a : Nat) (u : Byte) : (s.writeByte a u).stack = s.stack := rfl
@[simp] theorem State.writeByte_sp (a : Nat) (u : Byte) : (s.writeByte a u).sp = s.sp := rfl
@[simp] theorem State.writeByte_dt (a : Nat) (u : Byte) : (s.writeByte a u).dt = s.dt := rfl
@[simp] theorem State.writeByte_st (a : Nat) (u : Byte) : (s.writeByte a u).st = s.st := rfl
@[simp] theorem State.writeByte_fb (a : Nat) (u : Byte) : (s.writeByte a u).fb = s.fb := rfl
@[simp] theorem State.writeByte_keys (a : Nat) (u : Byte) : (s.writeByte a u).keys = s.keys := rfl
@[simp] theorem State.writeByte_redraw (a : Nat) (u : Byte) : (s.writeByte a u).redraw = s.redraw := rfl
@[simp] theorem State.writeByte_run (a : Nat) (u : Byte) : (s.writeByte a u).run = s.run := rfl
@[simp] theorem State.writeByte_params (a : Nat) (u : Byte) : (s.writeByte a u).params = s.params := rfl
@[simp] theorem State.writeByte_entropy (a : Nat) (u : Byte) : (s.writeByte a u).entropy = s.entropy := rfl

/-! ### `State.tick` -/

@[simp] theorem State.tick_mem : (s.tick).mem = s.mem := rfl
@[simp] theorem State.tick_v : (s.tick).v = s.v := rfl
@[simp] theorem State.tick_i : (s.tick).i = s.i := rfl
@[simp] theorem State.tick_pc : (s.tick).pc = s.pc := rfl
@[simp] theorem State.tick_stack : (s.tick).stack = s.stack := rfl
@[simp] theorem State.tick_sp : (s.tick).sp = s.sp := rfl
@[simp] theorem State.tick_dt : (s.tick).dt = countDown s.dt := rfl
@[simp] theorem State.tick_st : (s.tick).st = countDown s.st := rfl
@[simp] theorem State.tick_fb : (s.tick).fb = s.fb := rfl
@[simp] theorem State.tick_keys : (s.tick).keys = s.keys := rfl
@[simp] theorem State.tick_redraw : (s.tick).redraw = s.redraw := rfl
@[simp] theorem State.tick_run : (s.tick).run = s.run := rfl
@[simp] theorem State.tick_params : (s.tick).params = s.params := rfl
@[simp] theorem State.tick_entropy : (s.tick).entropy = s.entropy := rfl

/-! ### `State.acknowledge` -/

@[simp] theorem State.acknowledge_mem : (s.acknowledge).mem = s.mem := rfl
@[simp] theorem State.acknowledge_v : (s.acknowledge).v = s.v := rfl
@[simp] theorem State.acknowledge_i : (s.acknowledge).i = s.i := rfl
@[simp] theorem State.acknowledge_pc : (s.acknowledge).pc = s.pc := rfl
@[simp] theorem State.acknowledge_stack : (s.acknowledge).stack = s.stack := rfl
@[simp] theorem State.acknowledge_sp : (s.acknowledge).sp = s.sp := rfl
@[simp] theorem State.acknowledge_dt : (s.acknowledge).dt = s.dt := rfl
@[simp] theorem State.acknowledge_st : (s.acknowledge).st = s.st := rfl
@[simp] theorem State.acknowledge_fb : (s.acknowledge).fb = s.fb := rfl
@[simp] theorem State.acknowledge_keys : (s.acknowledge).keys = s.keys := rfl
@[simp] theorem State.acknowledge_redraw : (s.acknowledge).redraw = false := rfl
@[simp] theorem State.acknowledge_run : (s.acknowledge).run = s.run := rfl
@[simp] theorem State.acknowledge_params : (s.acknowledge).params = s.params := rfl
@[simp] theorem State.acknowledge_entropy : (s.acknowledge).entropy = s.entropy := rfl

/-! ### Readers through an update that does not touch what they read -/

@[simp] theorem State.readByte_setV (x : Reg) (u : Byte) (cell : Nat) :
    (s.setV x u).readByte cell = s.readByte cell := rfl
@[simp] theorem State.memWf_setV (x : Reg) (u : Byte) :
    (s.setV x u).memWf = s.memWf := rfl
@[simp] theorem State.getV_setI (a : Word) (q : Reg) :
    (s.setI a).getV q = s.getV q := rfl
@[simp] theorem State.readByte_setI (a : Word) (cell : Nat) :
    (s.setI a).readByte cell = s.readByte cell := rfl
@[simp] theorem State.memWf_setI (a : Word) :
    (s.setI a).memWf = s.memWf := rfl
@[simp] theorem State.getV_setDT (u : Byte) (q : Reg) :
    (s.setDT u).getV q = s.getV q := rfl
@[simp] theorem State.readByte_setDT (u : Byte) (cell : Nat) :
    (s.setDT u).readByte cell = s.readByte cell := rfl
@[simp] theorem State.memWf_setDT (u : Byte) :
    (s.setDT u).memWf = s.memWf := rfl
@[simp] theorem State.getV_setST (u : Byte) (q : Reg) :
    (s.setST u).getV q = s.getV q := rfl
@[simp] theorem State.readByte_setST (u : Byte) (cell : Nat) :
    (s.setST u).readByte cell = s.readByte cell := rfl
@[simp] theorem State.memWf_setST (u : Byte) :
    (s.setST u).memWf = s.memWf := rfl
@[simp] theorem State.getV_setKey (k : Key) (b : Bool) (q : Reg) :
    (s.setKey k b).getV q = s.getV q := rfl
@[simp] theorem State.readByte_setKey (k : Key) (b : Bool) (cell : Nat) :
    (s.setKey k b).readByte cell = s.readByte cell := rfl
@[simp] theorem State.memWf_setKey (k : Key) (b : Bool) :
    (s.setKey k b).memWf = s.memWf := rfl
@[simp] theorem State.getV_setRun (r : RunState) (q : Reg) :
    (s.setRun r).getV q = s.getV q := rfl
@[simp] theorem State.readByte_setRun (r : RunState) (cell : Nat) :
    (s.setRun r).readByte cell = s.readByte cell := rfl
@[simp] theorem State.memWf_setRun (r : RunState) :
    (s.setRun r).memWf = s.memWf := rfl
@[simp] theorem State.getV_setFB (fb : Framebuffer) (q : Reg) :
    (s.setFB fb).getV q = s.getV q := rfl
@[simp] theorem State.readByte_setFB (fb : Framebuffer) (cell : Nat) :
    (s.setFB fb).readByte cell = s.readByte cell := rfl
@[simp] theorem State.memWf_setFB (fb : Framebuffer) :
    (s.setFB fb).memWf = s.memWf := rfl
@[simp] theorem State.getV_drawn (q : Reg) :
    (s.drawn).getV q = s.getV q := rfl
@[simp] theorem State.readByte_drawn (cell : Nat) :
    (s.drawn).readByte cell = s.readByte cell := rfl
@[simp] theorem State.memWf_drawn :
    (s.drawn).memWf = s.memWf := rfl
@[simp] theorem State.getV_finish (o : PcOutcome) (q : Reg) :
    (s.finish o).getV q = s.getV q := rfl
@[simp] theorem State.readByte_finish (o : PcOutcome) (cell : Nat) :
    (s.finish o).readByte cell = s.readByte cell := rfl
@[simp] theorem State.memWf_finish (o : PcOutcome) :
    (s.finish o).memWf = s.memWf := rfl
@[simp] theorem State.getV_writeByte (a : Nat) (u : Byte) (q : Reg) :
    (s.writeByte a u).getV q = s.getV q := rfl
@[simp] theorem State.getV_tick (q : Reg) :
    (s.tick).getV q = s.getV q := rfl
@[simp] theorem State.readByte_tick (cell : Nat) :
    (s.tick).readByte cell = s.readByte cell := rfl
@[simp] theorem State.memWf_tick :
    (s.tick).memWf = s.memWf := rfl
@[simp] theorem State.getV_acknowledge (q : Reg) :
    (s.acknowledge).getV q = s.getV q := rfl
@[simp] theorem State.readByte_acknowledge (cell : Nat) :
    (s.acknowledge).readByte cell = s.readByte cell := rfl
@[simp] theorem State.memWf_acknowledge :
    (s.acknowledge).memWf = s.memWf := rfl

/-! ### Second names -/

@[simp] theorem State.setVF_eq_setV (u : Byte) : s.setVF u = s.setV 15 u := rfl
@[simp] theorem State.raise_eq_setRun (e : Error) : s.raise e = s.setRun (.halted e) := rfl
@[simp] theorem State.setResultAndFlag_eq (x : Reg) (u : Byte) (b : Bool) :
    s.setResultAndFlag x u b = (s.setV x u).setV 15 (flagByte b) := rfl
@[simp] theorem State.setIndexFlag_off (b : Bool) : s.setIndexFlag .off b = s := rfl
@[simp] theorem State.setIndexFlag_on (b : Bool) : s.setIndexFlag .on b = s.setV 15 (flagByte b) := rfl

/-! ### The state after a reset -/

@[simp] theorem State.resetWith_mem (p : Params) (e : Entropy) : (State.resetWith p e).mem = [] := rfl
@[simp] theorem State.resetWith_v (p : Params) (e : Entropy) : (State.resetWith p e).v = Vector.replicate 16 0 := rfl
@[simp] theorem State.resetWith_i (p : Params) (e : Entropy) : (State.resetWith p e).i = 0 := rfl
@[simp] theorem State.resetWith_pc (p : Params) (e : Entropy) : (State.resetWith p e).pc = 0x200 := rfl
@[simp] theorem State.resetWith_stack (p : Params) (e : Entropy) : (State.resetWith p e).stack = Vector.replicate 16 0 := rfl
@[simp] theorem State.resetWith_sp (p : Params) (e : Entropy) : (State.resetWith p e).sp = 0 := rfl
@[simp] theorem State.resetWith_dt (p : Params) (e : Entropy) : (State.resetWith p e).dt = 0 := rfl
@[simp] theorem State.resetWith_st (p : Params) (e : Entropy) : (State.resetWith p e).st = 0 := rfl
@[simp] theorem State.resetWith_fb (p : Params) (e : Entropy) : (State.resetWith p e).fb = clearFramebuffer := rfl
@[simp] theorem State.resetWith_keys (p : Params) (e : Entropy) : (State.resetWith p e).keys = Vector.replicate 16 false := rfl
@[simp] theorem State.resetWith_redraw (p : Params) (e : Entropy) : (State.resetWith p e).redraw = false := rfl
@[simp] theorem State.resetWith_run (p : Params) (e : Entropy) : (State.resetWith p e).run = .running := rfl
@[simp] theorem State.resetWith_params (p : Params) (e : Entropy) : (State.resetWith p e).params = p := rfl
@[simp] theorem State.resetWith_entropy (p : Params) (e : Entropy) : (State.resetWith p e).entropy = e := rfl

@[simp] theorem State.resetNow_eq : s.resetNow = State.resetWith s.params s.entropy := rfl

/-- Two states with equal fields are equal. -/
theorem State.ext_fields {s t : State} (hm : s.mem = t.mem) (hv : s.v = t.v) (hi : s.i = t.i) (hp : s.pc = t.pc)
    (hS : s.stack = t.stack) (hs : s.sp = t.sp) (hd : s.dt = t.dt) (ht : s.st = t.st) (hf : s.fb = t.fb)
    (hk : s.keys = t.keys) (hr : s.redraw = t.redraw) (hn : s.run = t.run) (ha : s.params = t.params)
    (he : s.entropy = t.entropy) : s = t := by
  obtain ⟨⟨⟩, _, _⟩ := s
  obtain ⟨⟨⟩, _, _⟩ := t
  simp_all

end Sys2Proof.Machine
end

