-- ==== Sys2Proof/Laws/Memory.lean ====
section
/-! SUPPORT. The laws of memory: a read after a write (20_memory.md R60), that every write keeps the canonical
form, and blocks of consecutive cells. -/

namespace Sys2Proof.Machine

/-! ### Lists of cells -/

theorem Memory.lookup_store_self (d : Byte) (a : Nat) (u : Byte) (font : Vector Byte 80) (lo : Nat) (m : Memory)
    (h : Memory.wfFrom font lo m = true) : Memory.lookup d a (Memory.store d a u m) = u := by
  have above : ∀ (m : Memory) (lo : Nat), a < lo → Memory.wfFrom font lo m = true →
      Memory.lookup d a m = d := by
    intro m
    induction m with
    | nil => intros; rfl
    | cons p rest ih =>
      intro lo hlo hw
      simp only [Memory.wfFrom, Bool.and_eq_true, decide_eq_true_eq] at hw
      have : p.1 ≠ a := by omega
      simp only [Memory.lookup, this, if_false]
      exact ih (p.1 + 1) (by omega) hw.2
  induction m generalizing lo with
  | nil => by_cases hu : u = d <;> simp [Memory.store, Memory.lookup, hu]
  | cons p rest ih =>
    simp only [Memory.wfFrom, Bool.and_eq_true, decide_eq_true_eq] at h
    by_cases h1 : p.1 < a
    · simp only [Memory.store, h1, if_true, Memory.lookup, Nat.ne_of_lt h1, if_false]
      exact ih (p.1 + 1) h.2
    · by_cases h2 : p.1 = a
      · by_cases hu : u = d
        · have := above rest (p.1 + 1) (by omega) h.2
          simp [Memory.store, h2, hu, this]
        · simp [Memory.store, h2, hu, Memory.lookup]
      · by_cases hu : u = d
        · have := above rest (p.1 + 1) (by omega) h.2
          simp [Memory.store, h1, h2, hu, Memory.lookup, this]
        · simp [Memory.store, h1, h2, hu, Memory.lookup]

theorem Memory.lookup_store_other (d d' : Byte) (a b : Nat) (u : Byte) (m : Memory) (hab : b ≠ a) :
    Memory.lookup d b (Memory.store d' a u m) = Memory.lookup d b m := by
  induction m with
  | nil => by_cases hu : u = d' <;> simp [Memory.store, Memory.lookup, hu, hab.symm]
  | cons p rest ih =>
    simp only [Memory.store]
    split
    · simp only [Memory.lookup, ih]
    · split
      · rename_i h
        have : p.1 ≠ b := by omega
        split <;> simp [Memory.lookup, this, hab.symm]
      · split <;> simp [Memory.lookup, hab.symm]

theorem Memory.wfFrom_mono (font : Vector Byte 80) (lo lo' : Nat) (m : Memory) (hle : lo' ≤ lo)
    (h : Memory.wfFrom font lo m = true) : Memory.wfFrom font lo' m = true := by
  cases m with
  | nil => rfl
  | cons p rest =>
    simp only [Memory.wfFrom, Bool.and_eq_true, decide_eq_true_eq] at h ⊢
    exact ⟨⟨⟨by omega, h.1.1.2⟩, h.1.2⟩, h.2⟩

theorem Memory.wfFrom_store (font : Vector Byte 80) (a : Nat) (u : Byte) (ha : a < 4096) (lo : Nat) (m : Memory)
    (hlo : lo ≤ a) (h : Memory.wfFrom font lo m = true) :
    Memory.wfFrom font lo (Memory.store (unlistedByte font a) a u m) = true := by
  induction m generalizing lo with
  | nil => by_cases hu : u = unlistedByte font a <;> simp [Memory.store, Memory.wfFrom, hu, ha, hlo]
  | cons p rest ih =>
    simp only [Memory.wfFrom, Bool.and_eq_true, decide_eq_true_eq] at h
    obtain ⟨⟨⟨h1, h2⟩, h3⟩, h4⟩ := h
    simp only [Memory.store]
    split
    · simp only [Memory.wfFrom, Bool.and_eq_true, decide_eq_true_eq]
      exact ⟨⟨⟨h1, h2⟩, h3⟩, ih (p.1 + 1) (by omega) h4⟩
    · split
      · rename_i hpa
        split
        · exact Memory.wfFrom_mono font _ lo rest (by omega) h4
        · rename_i hu
          simp only [Memory.wfFrom, Bool.and_eq_true, decide_eq_true_eq]
          exact ⟨⟨⟨hlo, ha⟩, hu⟩, hpa ▸ h4⟩
      · split
        · simp only [Memory.wfFrom, Bool.and_eq_true, decide_eq_true_eq]
          exact ⟨⟨⟨h1, h2⟩, h3⟩, h4⟩
        · rename_i hu
          simp only [Memory.wfFrom, Bool.and_eq_true, decide_eq_true_eq]
          exact ⟨⟨⟨hlo, ha⟩, hu⟩, ⟨⟨by omega, h2⟩, h3⟩, h4⟩

/-! ### The state's memory -/

/-- A read of the cell just written gives the byte written. -/
theorem State.readByte_writeByte_self (s : State) (a : Nat) (u : Byte) (h : s.memWf = true) :
    (s.writeByte a u).readByte a = u := by
  simp only [State.readByte, State.writeByte_mem, State.writeByte_params]
  exact Memory.lookup_store_self _ a u s.params.font 0 s.mem h

/-- A write leaves every other cell alone. -/
theorem State.readByte_writeByte_other (s : State) (a b : Nat) (u : Byte) (hab : b ≠ a) :
    (s.writeByte a u).readByte b = s.readByte b := by
  simp only [State.readByte, State.writeByte_mem, State.writeByte_params]
  exact Memory.lookup_store_other _ _ a b u s.mem hab

/-- Reads depend on the memory and the font alone. -/
theorem State.readByte_congr {s t : State} (hm : s.mem = t.mem) (hp : s.params = t.params) (a : Nat) :
    s.readByte a = t.readByte a := by
  simp only [State.readByte, hm, hp]

/-- The canonical form depends on the memory and the font alone. -/
theorem State.memWf_congr {s t : State} (hm : s.mem = t.mem) (hp : s.params = t.params) :
    s.memWf = t.memWf := by
  simp only [State.memWf, hm, hp]

/-- A write inside the address space keeps the canonical form. -/
theorem State.memWf_writeByte (s : State) (a : Nat) (u : Byte) (ha : a < 4096) (h : s.memWf = true) :
    (s.writeByte a u).memWf = true :=
  Memory.wfFrom_store s.params.font a u ha 0 s.mem (Nat.zero_le _) h

/-- The memory after a reset is in canonical form. -/
theorem State.memWf_resetWith (p : Params) (e : Entropy) : (State.resetWith p e).memWf = true := rfl

/-! ### Blocks of cells -/

/-- What a block write does to the components other than memory: nothing. -/
theorem State.writeBytes_fields (us : List Byte) (s : State) (a : Nat) :
    ∃ m, s.writeBytes a us = { s with mem := m } := by
  induction us generalizing s a with
  | nil => exact ⟨s.mem, rfl⟩
  | cons u us ih =>
    obtain ⟨m, h⟩ := ih (s.writeByte a u) (a + 1)
    exact ⟨m, h⟩

@[simp] theorem State.writeBytes_v (us : List Byte) (s : State) (a : Nat) : (s.writeBytes a us).v = s.v := by
  obtain ⟨m, h⟩ := State.writeBytes_fields us s a; rw [h]
@[simp] theorem State.writeBytes_i (us : List Byte) (s : State) (a : Nat) : (s.writeBytes a us).i = s.i := by
  obtain ⟨m, h⟩ := State.writeBytes_fields us s a; rw [h]
@[simp] theorem State.writeBytes_pc (us : List Byte) (s : State) (a : Nat) : (s.writeBytes a us).pc = s.pc := by
  obtain ⟨m, h⟩ := State.writeBytes_fields us s a; rw [h]
@[simp] theorem State.writeBytes_stack (us : List Byte) (s : State) (a : Nat) :
    (s.writeBytes a us).stack = s.stack := by
  obtain ⟨m, h⟩ := State.writeBytes_fields us s a; rw [h]
@[simp] theorem State.writeBytes_sp (us : List Byte) (s : State) (a : Nat) : (s.writeBytes a us).sp = s.sp := by
  obtain ⟨m, h⟩ := State.writeBytes_fields us s a; rw [h]
@[simp] theorem State.writeBytes_dt (us : List Byte) (s : State) (a : Nat) : (s.writeBytes a us).dt = s.dt := by
  obtain ⟨m, h⟩ := State.writeBytes_fields us s a; rw [h]
@[simp] theorem State.writeBytes_st (us : List Byte) (s : State) (a : Nat) : (s.writeBytes a us).st = s.st := by
  obtain ⟨m, h⟩ := State.writeBytes_fields us s a; rw [h]
@[simp] theorem State.writeBytes_fb (us : List Byte) (s : State) (a : Nat) : (s.writeBytes a us).fb = s.fb := by
  obtain ⟨m, h⟩ := State.writeBytes_fields us s a; rw [h]
@[simp] theorem State.writeBytes_keys (us : List Byte) (s : State) (a : Nat) :
    (s.writeBytes a us).keys = s.keys := by
  obtain ⟨m, h⟩ := State.writeBytes_fields us s a; rw [h]
@[simp] theorem State.writeBytes_redraw (us : List Byte) (s : State) (a : Nat) :
    (s.writeBytes a us).redraw = s.redraw := by
  obtain ⟨m, h⟩ := State.writeBytes_fields us s a; rw [h]
@[simp] theorem State.writeBytes_run (us : List Byte) (s : State) (a : Nat) :
    (s.writeBytes a us).run = s.run := by
  obtain ⟨m, h⟩ := State.writeBytes_fields us s a; rw [h]
@[simp] theorem State.writeBytes_params (us : List Byte) (s : State) (a : Nat) :
    (s.writeBytes a us).params = s.params := by
  obtain ⟨m, h⟩ := State.writeBytes_fields us s a; rw [h]
@[simp] theorem State.writeBytes_entropy (us : List Byte) (s : State) (a : Nat) :
    (s.writeBytes a us).entropy = s.entropy := by
  obtain ⟨m, h⟩ := State.writeBytes_fields us s a; rw [h]

/-- A block write leaves the cells outside the block alone. -/
theorem State.readByte_writeBytes_outside (us : List Byte) (s : State) (a b : Nat)
    (h : ¬ (a ≤ b ∧ b < a + us.length)) : (s.writeBytes a us).readByte b = s.readByte b := by
  induction us generalizing s a with
  | nil => rfl
  | cons u us ih =>
    simp only [List.length_cons] at h
    rw [State.writeBytes, ih _ _ (by omega), State.readByte_writeByte_other _ _ _ _ (by omega)]

/-- A block write inside the address space keeps the canonical form. -/
theorem State.memWf_writeBytes (us : List Byte) (s : State) (a : Nat) (ha : a + us.length ≤ 4096)
    (h : s.memWf = true) : (s.writeBytes a us).memWf = true := by
  induction us generalizing s a with
  | nil => exact h
  | cons u us ih =>
    simp only [List.length_cons] at ha
    exact ih _ _ (by omega) (State.memWf_writeByte s a u (by omega) h)

/-- After a block write, cell `k` of the block reads as byte `k` written. -/
theorem State.readByte_writeBytes_inside (us : List Byte) (s : State) (a k : Nat)
    (ha : a + us.length ≤ 4096) (hk : k < us.length) (h : s.memWf = true) :
    (s.writeBytes a us).readByte (a + k) = us[k] := by
  induction us generalizing s a k with
  | nil => simp at hk
  | cons u us ih =>
    simp only [List.length_cons] at ha hk
    have hw := State.memWf_writeByte s a u (by omega) h
    cases k with
    | zero =>
      rw [State.writeBytes, State.readByte_writeBytes_outside _ _ _ _ (by omega)]
      exact State.readByte_writeByte_self s a u h
    | succ k =>
      have := ih (s.writeByte a u) (a + 1) k (by omega) (by omega) hw
      rw [State.writeBytes, show a + (k + 1) = a + 1 + k by omega, this, List.getElem_cons_succ]

@[simp] theorem State.readBytes_length (s : State) (a n : Nat) : (s.readBytes a n).length = n := by
  induction n generalizing a with
  | zero => rfl
  | succ n ih => simp [State.readBytes, ih]

/-- Byte `k` of a block read is the byte of cell `a + k`. -/
theorem State.readBytes_getElem (s : State) (a n k : Nat) (h : k < (s.readBytes a n).length) :
    (s.readBytes a n)[k] = s.readByte (a + k) := by
  induction n generalizing a k with
  | zero => simp [State.readBytes] at h
  | succ n ih =>
    cases k with
    | zero => rfl
    | succ k =>
      simp only [State.readBytes, List.getElem_cons_succ, ih]
      rw [show a + 1 + k = a + (k + 1) by omega]

end Sys2Proof.Machine
end

