-- ==== Sys2Proof/Laws/Ops.lean ====
section
/-! SUPPORT. One lemma for each shared operation that says everything it can do: registers and register blocks,
the call stack, the framebuffer, the bounds check, the key operand and the fetch. -/

namespace Sys2Proof.Machine

/-! ### Registers -/

/-- A V register after a write of a V register. -/
theorem State.getV_setV (s : State) (x r : Reg) (u : Byte) :
    (s.setV x u).getV r = if r = x then u else s.getV r := by
  simp only [State.getV, State.setV_v, Vector.getElem_set, Fin.ext_iff, eq_comm]

@[simp] theorem State.getV_setV_self (s : State) (x : Reg) (u : Byte) : (s.setV x u).getV x = u := by
  simp [State.getV_setV]

/-- Registers depend on `v` alone. -/
theorem State.getV_congr {s t : State} (h : s.v = t.v) (r : Reg) : s.getV r = t.getV r := by
  simp only [State.getV, h]

/-- A key after a write of a key. -/
theorem State.keyDown_setKey (s : State) (k j : Key) (b : Bool) :
    (s.setKey k b).keyDown j = if j = k then b else s.keyDown j := by
  simp only [State.keyDown, State.setKey_keys, Vector.getElem_set, Fin.ext_iff, eq_comm]

/-- What a register block write does to the components other than `V`: nothing. -/
theorem State.setVs_fields (us : List Byte) (s : State) (r : Nat) :
    ∃ v, s.setVs r us = { s with v := v } := by
  induction us generalizing s r with
  | nil => exact ⟨s.v, rfl⟩
  | cons u us ih =>
    obtain ⟨v, h⟩ := ih (s.setV (Fin.ofNat 16 r) u) (r + 1)
    exact ⟨v, h⟩

@[simp] theorem State.setVs_mem (us : List Byte) (s : State) (r : Nat) : (s.setVs r us).mem = s.mem := by
  obtain ⟨v, h⟩ := State.setVs_fields us s r; rw [h]
@[simp] theorem State.setVs_i (us : List Byte) (s : State) (r : Nat) : (s.setVs r us).i = s.i := by
  obtain ⟨v, h⟩ := State.setVs_fields us s r; rw [h]
@[simp] theorem State.setVs_pc (us : List Byte) (s : State) (r : Nat) : (s.setVs r us).pc = s.pc := by
  obtain ⟨v, h⟩ := State.setVs_fields us s r; rw [h]
@[simp] theorem State.setVs_stack (us : List Byte) (s : State) (r : Nat) :
    (s.setVs r us).stack = s.stack := by
  obtain ⟨v, h⟩ := State.setVs_fields us s r; rw [h]
@[simp] theorem State.setVs_sp (us : List Byte) (s : State) (r : Nat) : (s.setVs r us).sp = s.sp := by
  obtain ⟨v, h⟩ := State.setVs_fields us s r; rw [h]
@[simp] theorem State.setVs_dt (us : List Byte) (s : State) (r : Nat) : (s.setVs r us).dt = s.dt := by
  obtain ⟨v, h⟩ := State.setVs_fields us s r; rw [h]
@[simp] theorem State.setVs_st (us : List Byte) (s : State) (r : Nat) : (s.setVs r us).st = s.st := by
  obtain ⟨v, h⟩ := State.setVs_fields us s r; rw [h]
@[simp] theorem State.setVs_fb (us : List Byte) (s : State) (r : Nat) : (s.setVs r us).fb = s.fb := by
  obtain ⟨v, h⟩ := State.setVs_fields us s r; rw [h]
@[simp] theorem State.setVs_keys (us : List Byte) (s : State) (r : Nat) : (s.setVs r us).keys = s.keys := by
  obtain ⟨v, h⟩ := State.setVs_fields us s r; rw [h]
@[simp] theorem State.setVs_redraw (us : List Byte) (s : State) (r : Nat) :
    (s.setVs r us).redraw = s.redraw := by
  obtain ⟨v, h⟩ := State.setVs_fields us s r; rw [h]
@[simp] theorem State.setVs_run (us : List Byte) (s : State) (r : Nat) : (s.setVs r us).run = s.run := by
  obtain ⟨v, h⟩ := State.setVs_fields us s r; rw [h]
@[simp] theorem State.setVs_params (us : List Byte) (s : State) (r : Nat) :
    (s.setVs r us).params = s.params := by
  obtain ⟨v, h⟩ := State.setVs_fields us s r; rw [h]
@[simp] theorem State.setVs_entropy (us : List Byte) (s : State) (r : Nat) :
    (s.setVs r us).entropy = s.entropy := by
  obtain ⟨v, h⟩ := State.setVs_fields us s r; rw [h]

@[simp] theorem State.readByte_setVs (us : List Byte) (s : State) (r b : Nat) :
    (s.setVs r us).readByte b = s.readByte b := by
  obtain ⟨v, h⟩ := State.setVs_fields us s r; rw [h]; rfl

/-- A register outside the block keeps its value. -/
theorem State.getV_setVs_outside (us : List Byte) (s : State) (r : Nat) (q : Reg) (hr : r + us.length ≤ 16)
    (h : ¬ (r ≤ q.val ∧ q.val < r + us.length)) : (s.setVs r us).getV q = s.getV q := by
  induction us generalizing s r with
  | nil => rfl
  | cons u us ih =>
    simp only [List.length_cons] at hr h
    rw [State.setVs, ih _ _ (by omega) (by omega), State.getV_setV, if_neg]
    intro hq
    have : q.val = r % 16 := by rw [hq]; rfl
    omega

/-- Register `r + k` of the block holds byte `k` written. -/
theorem State.getV_setVs_inside (us : List Byte) (s : State) (r k : Nat) (q : Reg) (hr : r + us.length ≤ 16)
    (hk : k < us.length) (hq : q.val = r + k) : (s.setVs r us).getV q = us[k] := by
  induction us generalizing s r k with
  | nil => simp at hk
  | cons u us ih =>
    simp only [List.length_cons] at hr hk
    cases k with
    | zero =>
      rw [State.setVs, State.getV_setVs_outside _ _ _ _ (by omega) (by omega), State.getV_setV, if_pos]
      · rfl
      · apply Fin.ext
        change q.val = r % 16
        omega
    | succ k =>
      rw [State.setVs, ih _ _ k (by omega) (by omega) (by omega), List.getElem_cons_succ]

@[simp] theorem State.getVs_length (s : State) (r n : Nat) : (s.getVs r n).length = n := by
  induction n generalizing r with
  | zero => rfl
  | succ n ih => simp [State.getVs, ih]

/-- Byte `k` of a register block read is register `r + k`. -/
theorem State.getVs_getElem (s : State) (r n k : Nat) (h : k < (s.getVs r n).length) :
    (s.getVs r n)[k] = s.getV (Fin.ofNat 16 (r + k)) := by
  induction n generalizing r k with
  | zero => simp [State.getVs] at h
  | succ n ih =>
    cases k with
    | zero => rfl
    | succ k =>
      simp only [State.getVs, List.getElem_cons_succ, ih]
      rw [show r + 1 + k = r + (k + 1) by omega]

@[simp] theorem State.getV_writeBytes (us : List Byte) (s : State) (a : Nat) (q : Reg) :
    (s.writeBytes a us).getV q = s.getV q := by
  simp only [State.getV, State.writeBytes_v]

/-! ### The call stack -/

/-- A push below 16 entries. -/
theorem State.push_of_lt (s : State) (a : Word) (h : s.sp.val < 16) :
    s.push a = some { s with stack := s.stack.set s.sp.val a, sp := ⟨s.sp.val + 1, by omega⟩ } := by
  simp [State.push, h]

/-- A push with 16 entries. -/
theorem State.push_full (s : State) (a : Word) (h : s.sp.val = 16) : s.push a = none := by
  simp [State.push, h]

/-- A pop with an entry. -/
theorem State.pop_of_pos (s : State) (h : 0 < s.sp.val) :
    s.pop = some (s.stack[s.sp.val - 1]'(by omega), { s with sp := ⟨s.sp.val - 1, by omega⟩ }) := by
  simp [State.pop, h]

/-- A pop with no entry. -/
theorem State.pop_empty (s : State) (h : s.sp.val = 0) : s.pop = none := by
  simp [State.pop, h]

/-! ### Bounds -/

/-- Everything the bounds check can answer. -/
theorem State.withBlock_cases (s : State) (n : Nat) (body : State) :
    ((n = 0 ∨ s.i.toNat + n ≤ 4096) ∧ s.withBlock n body = body) ∨
    ((n ≠ 0 ∧ 4096 < s.i.toNat + n) ∧
      s.withBlock n body = s.raise (.addressOutOfRange (firstBadAddress s.i))) := by
  by_cases h : n = 0 ∨ s.i.toNat + n ≤ 4096
  · exact .inl ⟨h, by rw [State.withBlock, if_pos h]⟩
  · exact .inr ⟨by omega, by rw [State.withBlock, if_neg h]⟩

theorem State.withBlock_in (s : State) (n : Nat) (body : State) (h : n = 0 ∨ s.i.toNat + n ≤ 4096) :
    s.withBlock n body = body := by
  rw [State.withBlock, if_pos h]

theorem State.withBlock_out (s : State) (n : Nat) (body : State) (hn : n ≠ 0) (h : 4096 < s.i.toNat + n) :
    s.withBlock n body = s.raise (.addressOutOfRange (firstBadAddress s.i)) := by
  rw [State.withBlock, if_neg (by omega)]

/-! ### Keys -/

theorem keyOfCode_of_lt (a : Byte) (h : a.toNat < 16) : keyOfCode a = some ⟨a.toNat, h⟩ := by
  rw [keyOfCode, dif_pos h]

theorem keyOfCode_of_ge (a : Byte) (h : 16 ≤ a.toNat) : keyOfCode a = none := by
  rw [keyOfCode, dif_neg (by omega)]

/-! ### The framebuffer -/

/-- A cell after a flip. -/
theorem Framebuffer.cell_flip (fb : Framebuffer) (px py x y : Nat) :
    Framebuffer.cell (Framebuffer.flip fb px py) x y =
      if px % 64 = x % 64 ∧ py % 32 = y % 32 then !Framebuffer.cell fb x y else Framebuffer.cell fb x y := by
  simp only [Framebuffer.cell, Framebuffer.flip, Vector.getElem_set]
  by_cases hy : py % 32 = y % 32
  · by_cases hx : px % 64 = x % 64 <;> simp [hx, hy]
  · simp [hy]

/-- One pixel: what the framebuffer holds after it. -/
theorem drawBit_cell (px py : Nat) (bit : Bool) (p : Framebuffer × Bool) (x y : Nat) :
    Framebuffer.cell (drawBit px py bit p).1 x y =
      if bit = true ∧ px % 64 = x % 64 ∧ py % 32 = y % 32 then !Framebuffer.cell p.1 x y
      else Framebuffer.cell p.1 x y := by
  cases bit <;> simp [drawBit, Framebuffer.cell_flip]

/-- One pixel: the collision it notes. -/
theorem drawBit_collision (px py : Nat) (bit : Bool) (p : Framebuffer × Bool) :
    (drawBit px py bit p).2 = (p.2 || (bit && Framebuffer.cell p.1 px py)) := by
  cases bit <;> simp [drawBit]

/-- Framebuffers with equal cells are equal. -/
theorem Framebuffer.ext_cell (fb fb' : Framebuffer)
    (h : ∀ x y, x < 64 → y < 32 → Framebuffer.cell fb x y = Framebuffer.cell fb' x y) : fb = fb' := by
  apply Vector.ext
  intro y hy
  apply Vector.ext
  intro x hx
  simpa only [Framebuffer.cell, Nat.mod_eq_of_lt hx, Nat.mod_eq_of_lt hy] using h x y hx hy

@[simp] theorem cell_clearFramebuffer (x y : Nat) : Framebuffer.cell clearFramebuffer x y = false := by
  simp [Framebuffer.cell, clearFramebuffer]

/-! ### Setting `pc` -/

@[simp] theorem pcAfter_next (pc : Word) : pcAfter pc .next = pc + 2 := rfl
@[simp] theorem pcAfter_skip (pc : Word) : pcAfter pc .skip = pc + 4 := rfl
@[simp] theorem pcAfter_jump (pc t : Word) : pcAfter pc (.jump t) = t := rfl

/-- `pc` after a conditional instruction. -/
theorem pcAfter_skipIf (pc : Word) (c : Bool) : pcAfter pc (skipIf c) = if c then pc + 4 else pc + 2 := by
  cases c <;> rfl

/-! ### Fetch -/

theorem State.fetch_of_le (s : State) (h : s.pc.toNat + 1 ≤ 4095) :
    s.fetch = some (joinBytes (s.readByte s.pc.toNat) (s.readByte (s.pc.toNat + 1))) := by
  rw [State.fetch, if_pos h]

theorem State.fetch_of_gt (s : State) (h : 4095 < s.pc.toNat + 1) : s.fetch = none := by
  rw [State.fetch, if_neg (by omega)]

/-! ### Flags and timers -/

@[simp] theorem flagByte_true : flagByte true = 1 := rfl
@[simp] theorem flagByte_false : flagByte false = 0 := rfl

theorem countDown_toNat (t : Byte) : (countDown t).toNat = t.toNat - 1 := by
  simp only [countDown, BitVec.toNat_ofNat]; omega

end Sys2Proof.Machine
end

