-- ==== Sys2Proof/Laws/Agents.lean ====
section
/-! SUPPORT. What an action of a session can do, said once (`act_cases`), and runs of actions: a run split in two, and
the one induction over a run. -/

namespace Sys2Proof.Machine

/-! ### A machine's answer in a session -/

@[simp] theorem inPhase_next (p : Phase) (s : State) : inPhase p (.next s) = .next { machine := s, phase := p } := rfl
@[simp] theorem inPhase_fault (p : Phase) (f : Fault) : inPhase p (.fault f) = .fault f := rfl
@[simp] theorem inPhase_refused (p : Phase) (r : Refusal) : inPhase p (.refused r) = .refused r := rfl

/-- A session goes on exactly where its machine does. -/
theorem inPhase_eq_next {p : Phase} {r : Result} {d : Session} :
    inPhase p r = .next d ↔ r = .next d.machine ∧ d.phase = p := by
  cases r <;> cases d <;> simp [inPhase, eq_comm]

/-! ### Single actions -/

variable (s : State) (p : Phase) (c : Session)

@[simp] theorem act_tick : act .tick c = .next { c with machine := c.machine.tick } := rfl
@[simp] theorem act_reset : act .reset c = .next { machine := c.machine.resetNow, phase := .fresh } := rfl

/-- A step of a session is the machine's step. -/
theorem act_step : act .step c = inPhase .started (step c.machine) := rfl

/-- The ROM loader succeeds exactly within its limit. -/
theorem State.loadRom_eq_next {s t : State} {rom : List Byte} :
    s.loadRom rom = .next t ↔ rom.length ≤ Config.maxRom ∧ t = s.writeBytes Config.progBase rom := by
  unfold State.loadRom
  split
  · simp; omega
  · simp only [Host.Outcome.next.injEq]
    exact ⟨fun h => ⟨by omega, h.symm⟩, fun h => h.2.symm⟩

/-- A load in a fresh session is the ROM loader's. -/
@[simp] theorem Session.load_fresh (rom : List Byte) :
    ({ machine := s, phase := .fresh } : Session).load rom = inPhase .loaded (s.loadRom rom) := rfl

/-- A load in any other session has no move. -/
theorem Session.load_refused {c : Session} (h : c.phase ≠ .fresh) (rom : List Byte) :
    c.load rom = .refused .loadOutsideBoot := by
  unfold Session.load
  split
  · contradiction
  all_goals rfl

/-- Everything an action can do. -/
theorem act_cases {a : Action} {c d : Session} (h : act a c = .next d) :
    (a = .step ∧ step c.machine = .next d.machine ∧ d.phase = .started) ∨
    (a = .tick ∧ d = { c with machine := c.machine.tick }) ∨
    (∃ k, a = .keyDown k ∧ c.machine.keyDown k = false ∧ d = { c with machine := c.machine.pressKey k }) ∨
    (∃ k, a = .keyUp k ∧ c.machine.keyDown k = true ∧ d = { c with machine := c.machine.setKey k false }) ∨
    (a = .consume ∧ c.machine.redraw = true ∧ d = { c with machine := c.machine.acknowledge }) ∨
    (a = .reset ∧ d = { machine := c.machine.resetNow, phase := .fresh }) ∨
    (∃ rom, a = .load rom ∧ c.phase = .fresh ∧ rom.length ≤ Config.maxRom ∧
      d = { machine := c.machine.writeBytes Config.progBase rom, phase := .loaded }) := by
  cases a with
  | step => exact .inl ⟨rfl, inPhase_eq_next.1 h⟩
  | tick => cases h; exact .inr (.inl ⟨rfl, rfl⟩)
  | keyDown k =>
    simp only [act, State.keyDownAction] at h
    split at h
    · cases h
    · cases h; exact .inr (.inr (.inl ⟨k, rfl, by simp_all, rfl⟩))
  | keyUp k =>
    simp only [act, State.keyUpAction] at h
    split at h
    · cases h; exact .inr (.inr (.inr (.inl ⟨k, rfl, ‹_›, rfl⟩)))
    · cases h
  | consume =>
    simp only [act, State.consumeAction] at h
    split at h
    · cases h; exact .inr (.inr (.inr (.inr (.inl ⟨rfl, ‹_›, rfl⟩))))
    · cases h
  | reset => cases h; exact .inr (.inr (.inr (.inr (.inr (.inl ⟨rfl, rfl⟩)))))
  | load rom =>
    simp only [act, Session.load] at h
    split at h
    · obtain ⟨h, hp⟩ := inPhase_eq_next.1 h
      obtain ⟨hl, hm⟩ := State.loadRom_eq_next.1 h
      refine .inr (.inr (.inr (.inr (.inr (.inr ⟨rom, rfl, ‹_›, hl, ?_⟩)))))
      cases d; simp_all
    all_goals cases h

/-! ### Runs -/

@[simp] theorem runActions_nil : runActions [] c = .next c := rfl

/-- A run that goes on made its first action and goes on from there. -/
theorem runActions_cons_eq_next {a : Action} {rest : List Action} {c d : Session} :
    runActions (a :: rest) c = .next d ↔ ∃ c', act a c = .next c' ∧ runActions rest c' = .next d := by
  simp only [runActions]
  cases act a c <;> simp

/-- A run in two parts. -/
theorem runActions_append_eq_next {as bs : List Action} {c d : Session} :
    runActions (as ++ bs) c = .next d ↔ ∃ c', runActions as c = .next c' ∧ runActions bs c' = .next d := by
  induction as generalizing c with
  | nil => simp
  | cons a as ih =>
    simp only [List.cons_append, runActions_cons_eq_next, ih]
    exact ⟨fun ⟨x, h, y, h', h''⟩ => ⟨y, ⟨x, h, h'⟩, h''⟩, fun ⟨y, ⟨x, h, h'⟩, h''⟩ => ⟨x, h, y, h', h''⟩⟩

/-- What every action keeps, every run keeps. -/
theorem runActions_induct {P : Session → Prop} (hact : ∀ a c d, P c → act a c = .next d → P d)
    {actions : List Action} {c d : Session} (hc : P c) (h : runActions actions c = .next d) : P d := by
  induction actions generalizing c with
  | nil => cases h; exact hc
  | cons a rest ih =>
    obtain ⟨c', ha, hr⟩ := runActions_cons_eq_next.1 h
    exact ih (hact a c c' hc ha) hr

end Sys2Proof.Machine
end

