-- ==== Sys2Proof/Laws/Decode.lean ====
section
/-! SUPPORT. Fields of packed words, words of two cells, and the masks of the opcode table as fields (spec
30_encoding.md R71, R75). -/

namespace Sys2Proof

/-! ### Fields are bits -/

/-- Equal words have equal fields `op`, `x`, `y`, `n`, and the other way round. -/
theorem word_ext_fields {w v : Word} (h1 : field w 15 12 = field v 15 12) (h2 : field w 11 8 = field v 11 8)
    (h3 : field w 7 4 = field v 7 4) (h4 : field w 3 0 = field v 3 0) : w = v := by
  apply BitVec.eq_of_toNat_eq
  have hw := w.isLt
  have hv := v.isLt
  simp only [field] at h1 h2 h3 h4
  norm_num at h1 h2 h3 h4
  omega

theorem field_7_0 (w : Word) : field w 7 0 = field w 7 4 * 16 + field w 3 0 := by
  simp only [field]; norm_num; omega

theorem field_11_0 (w : Word) : field w 11 0 = field w 11 8 * 256 + field w 7 0 := by
  simp only [field]; norm_num; omega

theorem field_lt (w : Word) (hi lo : Nat) : field w hi lo < 2 ^ (hi + 1 - lo) :=
  Nat.mod_lt _ (by positivity)

/-! ### Packed words -/

theorem packNNN_toNat (op : Nat) (nnn : Addr) (h : op < 16) :
    (packNNN op nnn).toNat = op * 4096 + nnn.toNat := by
  have := nnn.isLt
  simp only [packNNN, BitVec.toNat_ofNat]; omega

theorem packXNN_toNat (op : Nat) (x : Reg) (nn : Nat) (h : op < 16) (hn : nn < 256) :
    (packXNN op x nn).toNat = op * 4096 + x.val * 256 + nn := by
  have := x.isLt
  simp only [packXNN, BitVec.toNat_ofNat]; omega

theorem packXYN_toNat (op : Nat) (x y : Reg) (n : Nat) (h : op < 16) (hn : n < 16) :
    (packXYN op x y n).toNat = op * 4096 + x.val * 256 + y.val * 16 + n := by
  have := x.isLt
  have := y.isLt
  simp only [packXYN, BitVec.toNat_ofNat]; omega

/-! ### Cells of a word -/

/-- The word of the two cells of a word is that word (R55). -/
theorem joinBytes_cells (w : Word) : joinBytes (highByte w) (lowByte w) = w := by
  apply BitVec.eq_of_toNat_eq
  have := w.isLt
  simp only [joinBytes, highByte, lowByte, BitVec.toNat_ofNat]
  omega

theorem highByte_joinBytes (hi lo : Byte) : highByte (joinBytes hi lo) = hi := by
  apply BitVec.eq_of_toNat_eq
  have := hi.isLt
  have := lo.isLt
  simp only [joinBytes, highByte, BitVec.toNat_ofNat]
  omega

theorem lowByte_joinBytes (hi lo : Byte) : lowByte (joinBytes hi lo) = lo := by
  apply BitVec.eq_of_toNat_eq
  have := hi.isLt
  have := lo.isLt
  simp only [joinBytes, lowByte, BitVec.toNat_ofNat]
  omega

theorem joinBytes_toNat (hi lo : Byte) : (joinBytes hi lo).toNat = hi.toNat * 256 + lo.toNat := by
  have := hi.isLt
  have := lo.isLt
  simp only [joinBytes, BitVec.toNat_ofNat]
  omega

/-- Decoding the two cells of a word decodes the word (R70). -/
theorem decodeTableWord_eq (nbits w : Nat) : decodeTableWord nbits w = decode (tableWord nbits w) := by
  simp only [decodeTableWord, decodeBytes, bytesOfWord, wordOfBytes, joinBytes_cells]
  cases decode (tableWord nbits w) <;> rfl

/-! ### Masks as fields -/

/-- A mask of the top nibble and the low `k` bits keeps exactly those. -/
theorem and_top_low (n k : Nat) (hk : k ≤ 12) :
    n &&& (2 ^ 12 * 15 + (2 ^ k - 1)) = 2 ^ 12 * (n / 2 ^ 12 % 2 ^ 4) + n % 2 ^ k := by
  have hpow : 2 ^ k ≤ 2 ^ 12 := Nat.pow_le_pow_right (by omega) hk
  have hpos : 0 < 2 ^ k := by positivity
  have hmod := Nat.mod_lt n hpos
  apply Nat.eq_of_testBit_eq
  intro j
  rw [Nat.testBit_and, Nat.testBit_two_pow_mul_add _ (by omega), Nat.testBit_two_pow_mul_add _ (by omega)]
  split
  · rw [Nat.testBit_two_pow_sub_one, Nat.testBit_mod_two_pow, Bool.and_comm]
  · rw [show (15 : Nat) = 2 ^ 4 - 1 from rfl, Nat.testBit_two_pow_sub_one, Nat.testBit_mod_two_pow,
      Nat.testBit_div_two_pow, show j - 12 + 12 = j by omega, Bool.and_comm]

theorem and_F000_toNat (w : Word) : (w &&& 0xF000).toNat = field w 15 12 * 4096 := by
  have h := and_top_low w.toNat 0 (by omega)
  have e : (w &&& 0xF000).toNat = w.toNat &&& (2 ^ 12 * 15 + (2 ^ 0 - 1)) := rfl
  rw [e, h, field]
  norm_num
  omega

theorem and_F00F_toNat (w : Word) : (w &&& 0xF00F).toNat = field w 15 12 * 4096 + field w 3 0 := by
  have h := and_top_low w.toNat 4 (by omega)
  have e : (w &&& 0xF00F).toNat = w.toNat &&& (2 ^ 12 * 15 + (2 ^ 4 - 1)) := rfl
  rw [e, h, field, field]
  norm_num
  omega

theorem and_F0FF_toNat (w : Word) : (w &&& 0xF0FF).toNat = field w 15 12 * 4096 + field w 7 0 := by
  have h := and_top_low w.toNat 8 (by omega)
  have e : (w &&& 0xF0FF).toNat = w.toNat &&& (2 ^ 12 * 15 + (2 ^ 8 - 1)) := rfl
  rw [e, h, field, field]
  norm_num
  omega

theorem field_op_lt (w : Word) : field w 15 12 < 16 := field_lt w 15 12
theorem field_n_lt (w : Word) : field w 3 0 < 16 := field_lt w 3 0
theorem field_nn_lt (w : Word) : field w 7 0 < 256 := field_lt w 7 0
theorem field_nnn_lt (w : Word) : field w 11 0 < 4096 := field_lt w 11 0

/-- Rows with mask 0xF000 select by `op`. -/
theorem and_F000_iff (w : Word) (op : Nat) (h : op < 16) :
    w &&& 0xF000 = BitVec.ofNat 16 (op * 4096) ↔ field w 15 12 = op := by
  have := field_op_lt w
  rw [← BitVec.toNat_inj, and_F000_toNat, BitVec.toNat_ofNat]
  omega

/-- Rows with mask 0xF00F select by `op` and `n`. -/
theorem and_F00F_iff (w : Word) (op n : Nat) (h : op < 16) (hn : n < 16) :
    w &&& 0xF00F = BitVec.ofNat 16 (op * 4096 + n) ↔ field w 15 12 = op ∧ field w 3 0 = n := by
  have := field_op_lt w
  have := field_n_lt w
  rw [← BitVec.toNat_inj, and_F00F_toNat, BitVec.toNat_ofNat]
  omega

/-- Rows with mask 0xF0FF select by `op` and `nn`. -/
theorem and_F0FF_iff (w : Word) (op nn : Nat) (h : op < 16) (hn : nn < 256) :
    w &&& 0xF0FF = BitVec.ofNat 16 (op * 4096 + nn) ↔ field w 15 12 = op ∧ field w 7 0 = nn := by
  have := field_op_lt w
  have := field_nn_lt w
  rw [← BitVec.toNat_inj, and_F0FF_toNat, BitVec.toNat_ofNat]
  omega

end Sys2Proof
end

