-- ==== Sys2Proof/Laws/Exec.lean ====
section
/-! SUPPORT. What `exec` answers, said once for all instructions: with an error of the instruction's own check, the
state with that error recorded; without one, a next state whose `run` is unchanged or, for `Fx0A`, waiting. -/

namespace Sys2Proof.Machine

/-- The two spellings of a big-endian word. -/
theorem joinBytes_eq_or (hi lo : Byte) : joinBytes hi lo = hi.setWidth 16 <<< 8 ||| lo.setWidth 16 := by
  apply BitVec.eq_of_toNat_eq
  have hh := hi.isLt
  have hl := lo.isLt
  rw [joinBytes_toNat]
  simp only [BitVec.toNat_or, BitVec.toNat_shiftLeft, BitVec.toNat_setWidth]
  rw [Nat.mod_eq_of_lt (a := hi.toNat) (by omega), Nat.mod_eq_of_lt (a := lo.toNat) (by omega),
    Nat.shiftLeft_eq, Nat.mod_eq_of_lt (by omega), Nat.mul_comm,
    ← Nat.two_pow_add_eq_or_of_lt (i := 8) hl]

/-- A block without an error of its own runs its body. -/
theorem State.withBlock_of_noError (s : State) (n : Nat) (body : State) (h : blockError s n = none) :
    s.withBlock n body = body := by
  apply State.withBlock_in
  unfold blockError at h
  split at h
  · cases h
  · omega

/-- A block with an error raises it. -/
theorem State.withBlock_of_error (s : State) (n : Nat) (body : State) (e : Error)
    (h : blockError s n = some e) : s.withBlock n body = s.setRun (.halted e) := by
  unfold blockError at h
  split at h
  · cases h; rw [State.withBlock_out _ _ _ (by omega) (by omega)]; rfl
  · cases h

/-- The live stack is not empty where `00EE` raises nothing. -/
theorem sp_pos_of_noError {s : State} (h : Instr.errorOn s .ret = none) : 0 < s.sp.val := by
  simp only [Instr.errorOn] at h
  split at h
  · cases h
  · rename_i hs
    exact Nat.pos_of_ne_zero fun hc => hs (Fin.ext hc)

/-- The stack is not full where `2nnn` raises nothing. -/
theorem sp_lt_of_noError {s : State} {nnn : Addr} (h : Instr.errorOn s (.call nnn) = none) :
    s.sp.val < 16 := by
  simp only [Instr.errorOn] at h
  split at h
  · cases h
  · rename_i hs
    have := s.sp.isLt
    exact Nat.lt_of_le_of_ne (by omega) fun hc => hs (Fin.ext hc)

/-- The key code is in range where a key test raises nothing. -/
theorem code_lt_of_noError {s : State} {x : Reg} (h : keyError s x = none) : (s.getV x).toNat < 16 := by
  unfold keyError at h
  split at h
  · cases h
  · omega

/-- An instruction whose own check fails records the error and changes nothing else. -/
theorem exec_of_error (i : Instr) (s : State) (e : Error) (h : i.errorOn s = some e) :
    exec i s = .next (s.setRun (.halted e)) := by
  cases i
  case ret =>
    simp only [Instr.errorOn] at h; split at h <;> cases h
    rename_i hs
    simp [exec, execRet, State.pop_empty s (by simp [hs])]
  case call =>
    simp only [Instr.errorOn] at h; split at h <;> cases h
    rename_i hs
    simp [exec, execCall, State.push_full s _ (by simp [hs])]
  case drw => simp [exec, execDrw, State.withBlock_of_error s _ _ e h]
  case ldBcd => simp [exec, execLdBcd, State.withBlock_of_error s _ _ e h]
  case storeRegs => simp [exec, execStoreRegs, blockLength, State.withBlock_of_error s _ _ e h]
  case loadRegs => simp [exec, execLoadRegs, blockLength, State.withBlock_of_error s _ _ e h]
  case skp x =>
    simp only [Instr.errorOn, keyError] at h; split at h <;> cases h
    simp [exec, execSkp, State.testKey, keyOfCode_of_ge (s.getV x) (by omega)]
  case sknp x =>
    simp only [Instr.errorOn, keyError] at h; split at h <;> cases h
    simp [exec, execSknp, State.testKey, keyOfCode_of_ge (s.getV x) (by omega)]
  all_goals cases h

/-- An instruction whose own check passes completes; `run` is unchanged, but for `Fx0A`. -/
theorem exec_of_noError (i : Instr) (s : State) (h : i.errorOn s = none) :
    ∃ t, exec i s = .next t ∧ (t.run = s.run ∨ ∃ x, i = .ldVxKey x ∧ t.run = .waiting x) := by
  cases i
  case ret => simp only [exec, execRet, State.pop_of_pos s (sp_pos_of_noError h)]; exact ⟨_, rfl, .inl rfl⟩
  case call =>
    simp only [exec, execCall, State.push_of_lt s _ (sp_lt_of_noError h)]; exact ⟨_, rfl, .inl rfl⟩
  case drw => simp only [exec, execDrw, State.withBlock_of_noError s _ _ h]; exact ⟨_, rfl, .inl rfl⟩
  case ldBcd =>
    simp only [exec, execLdBcd, State.withBlock_of_noError s _ _ h]; exact ⟨_, rfl, .inl (by simp)⟩
  case storeRegs =>
    simp only [exec, execStoreRegs, blockLength, State.withBlock_of_noError s _ _ h]
    exact ⟨_, rfl, .inl (by simp)⟩
  case loadRegs =>
    simp only [exec, execLoadRegs, blockLength, State.withBlock_of_noError s _ _ h]
    exact ⟨_, rfl, .inl (by simp)⟩
  case skp x =>
    simp only [exec, execSkp, State.testKey, keyOfCode_of_lt (s.getV x) (code_lt_of_noError h)]
    exact ⟨_, rfl, .inl rfl⟩
  case sknp x =>
    simp only [exec, execSknp, State.testKey, keyOfCode_of_lt (s.getV x) (code_lt_of_noError h)]
    exact ⟨_, rfl, .inl rfl⟩
  case ldVxKey x => exact ⟨_, rfl, .inr ⟨x, rfl, rfl⟩⟩
  case addI x =>
    refine ⟨_, rfl, .inl ?_⟩
    cases h : s.params.indexOverflow <;> simp
  all_goals exact ⟨_, rfl, .inl rfl⟩

end Sys2Proof.Machine
end

