-- ==== Sys2Proof/Laws/PerInstr.lean ====
section
/-! SUPPORT. Statements made of every instruction, one lemma per constructor. Family `EncodedRow`: the word of a
well-formed instruction is a word of its own row of the opcode table (spec 30_encoding.md R72, R75). -/

namespace Sys2Proof.Laws

/-! ### The formats -/

theorem packNNN_row (op : Nat) (nnn : Addr) (h : op < 16) :
    packNNN op nnn &&& 0xF000 = BitVec.ofNat 16 (op * 4096) := by
  rw [and_F000_iff _ _ h, field, packNNN_toNat op nnn h]
  have := nnn.isLt
  norm_num
  omega

theorem packXNN_row (op : Nat) (x : Reg) (nn : Byte) (h : op < 16) :
    packXNN op x nn.toNat &&& 0xF000 = BitVec.ofNat 16 (op * 4096) := by
  rw [and_F000_iff _ _ h, field, packXNN_toNat op x _ h nn.isLt]
  have := nn.isLt
  norm_num
  omega

theorem packXNN_sub_row (op : Nat) (x : Reg) (nn : Nat) (h : op < 16) (hn : nn < 256) :
    packXNN op x nn &&& 0xF0FF = BitVec.ofNat 16 (op * 4096 + nn) := by
  rw [and_F0FF_iff _ _ _ h hn, field, field, packXNN_toNat op x _ h hn]
  norm_num
  omega

theorem packXYN_sub_row (op : Nat) (x y : Reg) (n : Nat) (h : op < 16) (hn : n < 16) :
    packXYN op x y n &&& 0xF00F = BitVec.ofNat 16 (op * 4096 + n) := by
  rw [and_F00F_iff _ _ _ h hn, field, field, packXYN_toNat op x y _ h hn]
  norm_num
  omega

theorem packXYN_row (op : Nat) (x y : Reg) (n : Nat) (h : op < 16) (hn : n < 16) :
    packXYN op x y n &&& 0xF000 = BitVec.ofNat 16 (op * 4096) := by
  rw [and_F000_iff _ _ h, field, packXYN_toNat op x y _ h hn]
  norm_num
  omega

end Sys2Proof.Laws

/-- The word of a well-formed instruction is a word of its row. -/
def Sys2Proof.Laws.EncodedRow.Statement (i : Sys2Proof.Instr) : Prop :=
  i.WellFormed → Sys2Proof.encode i &&& (Sys2Proof.rowOf i).mask = (Sys2Proof.rowOf i).value

namespace Sys2Proof.Laws.EncodedRow

theorem cls : Statement .cls := fun _ => rfl
theorem ret : Statement .ret := fun _ => rfl
theorem jp (nnn : Addr) : Statement (.jp nnn) := fun _ => packNNN_row 1 nnn (by omega)
theorem call (nnn : Addr) : Statement (.call nnn) := fun _ => packNNN_row 2 nnn (by omega)
theorem seImm (x : Reg) (nn : Byte) : Statement (.seImm x nn) := fun _ => packXNN_row 3 x nn (by omega)
theorem sneImm (x : Reg) (nn : Byte) : Statement (.sneImm x nn) := fun _ => packXNN_row 4 x nn (by omega)
theorem seReg (x : Reg) (y : Reg) : Statement (.seReg x y) := fun _ => packXYN_sub_row 5 x y 0 (by omega) (by omega)
theorem ldImm (x : Reg) (nn : Byte) : Statement (.ldImm x nn) := fun _ => packXNN_row 6 x nn (by omega)
theorem addImm (x : Reg) (nn : Byte) : Statement (.addImm x nn) := fun _ => packXNN_row 7 x nn (by omega)
theorem ldReg (x : Reg) (y : Reg) : Statement (.ldReg x y) := fun _ => packXYN_sub_row 8 x y 0 (by omega) (by omega)
theorem orReg (x : Reg) (y : Reg) : Statement (.orReg x y) := fun _ => packXYN_sub_row 8 x y 1 (by omega) (by omega)
theorem andReg (x : Reg) (y : Reg) : Statement (.andReg x y) := fun _ => packXYN_sub_row 8 x y 2 (by omega) (by omega)
theorem xorReg (x : Reg) (y : Reg) : Statement (.xorReg x y) := fun _ => packXYN_sub_row 8 x y 3 (by omega) (by omega)
theorem addReg (x : Reg) (y : Reg) : Statement (.addReg x y) := fun _ => packXYN_sub_row 8 x y 4 (by omega) (by omega)
theorem subReg (x : Reg) (y : Reg) : Statement (.subReg x y) := fun _ => packXYN_sub_row 8 x y 5 (by omega) (by omega)
theorem shrReg (x : Reg) (y : Reg) : Statement (.shrReg x y) := fun _ => packXYN_sub_row 8 x y 6 (by omega) (by omega)
theorem subnReg (x : Reg) (y : Reg) : Statement (.subnReg x y) := fun _ => packXYN_sub_row 8 x y 7 (by omega) (by omega)
theorem shlReg (x : Reg) (y : Reg) : Statement (.shlReg x y) := fun _ => packXYN_sub_row 8 x y 14 (by omega) (by omega)
theorem sneReg (x : Reg) (y : Reg) : Statement (.sneReg x y) := fun _ => packXYN_sub_row 9 x y 0 (by omega) (by omega)
theorem ldI (nnn : Addr) : Statement (.ldI nnn) := fun _ => packNNN_row 10 nnn (by omega)
theorem jpV0 (nnn : Addr) : Statement (.jpV0 nnn) := fun _ => packNNN_row 11 nnn (by omega)
theorem rnd (x : Reg) (nn : Byte) : Statement (.rnd x nn) := fun _ => packXNN_row 12 x nn (by omega)
theorem drw (x : Reg) (y : Reg) (n : Nat) : Statement (.drw x y n) := fun h =>
  packXYN_row 13 x y n (by omega) (Nat.lt_succ_of_le (of_decide_eq_true h))
theorem skp (x : Reg) : Statement (.skp x) := fun _ => packXNN_sub_row 14 x 158 (by omega) (by omega)
theorem sknp (x : Reg) : Statement (.sknp x) := fun _ => packXNN_sub_row 14 x 161 (by omega) (by omega)
theorem ldVxDt (x : Reg) : Statement (.ldVxDt x) := fun _ => packXNN_sub_row 15 x 7 (by omega) (by omega)
theorem ldVxKey (x : Reg) : Statement (.ldVxKey x) := fun _ => packXNN_sub_row 15 x 10 (by omega) (by omega)
theorem ldDtVx (x : Reg) : Statement (.ldDtVx x) := fun _ => packXNN_sub_row 15 x 21 (by omega) (by omega)
theorem ldStVx (x : Reg) : Statement (.ldStVx x) := fun _ => packXNN_sub_row 15 x 24 (by omega) (by omega)
theorem addI (x : Reg) : Statement (.addI x) := fun _ => packXNN_sub_row 15 x 30 (by omega) (by omega)
theorem ldFont (x : Reg) : Statement (.ldFont x) := fun _ => packXNN_sub_row 15 x 41 (by omega) (by omega)
theorem ldBcd (x : Reg) : Statement (.ldBcd x) := fun _ => packXNN_sub_row 15 x 51 (by omega) (by omega)
theorem storeRegs (x : Reg) : Statement (.storeRegs x) := fun _ => packXNN_sub_row 15 x 85 (by omega) (by omega)
theorem loadRegs (x : Reg) : Statement (.loadRegs x) := fun _ => packXNN_sub_row 15 x 101 (by omega) (by omega)

end Sys2Proof.Laws.EncodedRow
end

