-- ==== Sys2Proof/Tests/Slice0.lean ====
section
/-! SUPPORT. The model's own tests. Expected results are the spec's: the vectors of 95_test_vectors.md are named by
their ids, and the words of the decode tests are written out from the formats and patterns of 30_encoding.md
R72 and R75. A theorem `witness_<Name>` shows that the hypotheses of `Obligations.<Name>` can be met. -/

namespace Sys2Proof.Tests

open Sys2Proof Sys2Proof.Machine

set_option Elab.async false -- one theorem at a time: each `decide +kernel` holds a thread while it waits

/-! ### Helpers -/

/-- A state with these V registers. -/
def withV (vs : List (Reg × Byte)) (s : State) : State := vs.foldl (fun s p => s.setV p.1 p.2) s

/-- A state with these bytes at `a`. -/
def withMem (a : Nat) (us : List Byte) (s : State) : State := s.writeBytes a us

/-- A state with this `I`. -/
def withI (a : Word) (s : State) : State := s.setI a

/-- A state with this `pc`. -/
def atPc (a : Word) (s : State) : State := { s with pc := a }

/-- A state with this call stack. -/
def withStack (sp : Fin 17) (entries : List (Fin 16 × Word)) (s : State) : State :=
  entries.foldl (fun s p => { s with stack := s.stack.set p.1.val p.2 }) { s with sp := sp }

/-- A state with key `k` down. -/
def withKey (k : Key) (s : State) : State := s.setKey k true

/-- A state with these cells flipped. -/
def withCells (cells : List (Nat × Nat)) (s : State) : State :=
  { s with fb := cells.foldl (fun fb p => Framebuffer.flip fb p.1 p.2) s.fb }

/-- `SHIFT_SOURCE = VX` and `FX1E_VF_OVERFLOW = ON`. -/
def otherQuirks (s : State) : State :=
  { s with params := { s.params with shiftSource := .vx, indexOverflow := .on } }

/-- A state whose next entropy bytes are these. -/
def withEntropy (us : List Byte) (s : State) : State := { s with entropy := { fixed := us, drawn := 0 } }

/-- The state an outcome answers, or `s` itself. -/
def stateOr (s : State) : Result → State
  | .next t => t
  | .fault _ => s
  | .refused _ => s

/-- The state after the word `w`, placed at `pc` of `s`, has been stepped. -/
def after (w : Nat) (s : State) : State := stateOr s (step (s.withFetchWord 16 w))

/-- A session of this machine that has made its first step. -/
def running (s : State) : Session := { machine := s, phase := .started }

/-- The state after an action in a session that has made its first step. -/
def afterAct (a : Action) (s : State) : State :=
  match act a (running s) with
  | .next d => d.machine
  | .fault _ => s
  | .refused _ => s

/-- Is this cell 1? -/
def lit (s : State) (x y : Nat) : Bool := Framebuffer.cell s.fb x y

/-- How many cells are 1. -/
def litCount (s : State) : Nat := (s.frame.filter id).length

/-! ### Well-formed terms (R73) -/

theorem test_wellFormed_rows : (Instr.drw 15 15 15).wellFormed = true := by decide
theorem test_illFormed_rows : (Instr.drw 0 0 16).wellFormed = false := by decide

/-! ### Decoding: words written out from R72 and R75 -/

theorem test_decode_0x0 : decode 0x00E0 = some .cls ∧ decode 0x00EE = some .ret := by decide
theorem test_decode_jumps : decode 0x1234 = some (.jp 0x234) ∧ decode 0x2ABC = some (.call 0xABC) ∧
    decode 0xBFFE = some (.jpV0 0xFFE) ∧ decode 0xA2F0 = some (.ldI 0x2F0) := by decide
theorem test_decode_skips : decode 0x3A42 = some (.seImm 0xA 0x42) ∧ decode 0x4B07 = some (.sneImm 0xB 0x07) ∧
    decode 0x5AB0 = some (.seReg 0xA 0xB) ∧ decode 0x9CD0 = some (.sneReg 0xC 0xD) := by decide
theorem test_decode_immediates : decode 0x6F05 = some (.ldImm 0xF 0x05) ∧
    decode 0x7AFF = some (.addImm 0xA 0xFF) ∧ decode 0xC30F = some (.rnd 0x3 0x0F) := by decide
theorem test_decode_alu : decode 0x8AB0 = some (.ldReg 0xA 0xB) ∧ decode 0x8AB1 = some (.orReg 0xA 0xB) ∧
    decode 0x8AB2 = some (.andReg 0xA 0xB) ∧ decode 0x8AB3 = some (.xorReg 0xA 0xB) ∧
    decode 0x8AB4 = some (.addReg 0xA 0xB) := by decide
theorem test_decode_alu_flags : decode 0x8AB5 = some (.subReg 0xA 0xB) ∧
    decode 0x8AB6 = some (.shrReg 0xA 0xB) ∧ decode 0x8AB7 = some (.subnReg 0xA 0xB) ∧
    decode 0x8ABE = some (.shlReg 0xA 0xB) := by decide
theorem test_decode_draw : decode 0xD12F = some (.drw 1 2 15) ∧ decode 0xDFE0 = some (.drw 15 14 0) := by
  decide
theorem test_decode_keys : decode 0xE59E = some (.skp 5) ∧ decode 0xEFA1 = some (.sknp 15) := by decide
theorem test_decode_misc_low : decode 0xF307 = some (.ldVxDt 3) ∧ decode 0xF20A = some (.ldVxKey 2) ∧
    decode 0xF115 = some (.ldDtVx 1) ∧ decode 0xF118 = some (.ldStVx 1) ∧
    decode 0xF41E = some (.addI 4) := by decide
theorem test_decode_misc_high : decode 0xF229 = some (.ldFont 2) ∧ decode 0xF133 = some (.ldBcd 1) ∧
    decode 0xF355 = some (.storeRegs 3) ∧ decode 0xFF65 = some (.loadRegs 15) := by decide

/-- F4 to F14: words of families 0x0, 0x5, 0x8, 0x9, 0xE and 0xF that match no row. -/
theorem test_decode_illegal :
    ([0x0000, 0x0123, 0x5121, 0x8128, 0x812F, 0x912A, 0xE1A0, 0xF100, 0xF1FF, 0x00EF, 0x00E1] : List Word).all
      (fun w => decode w == none) = true := by decide

/-- The word `D12F` as the table numbers its bits, and its two cells, high byte first (R70). -/
theorem test_decodeTableWord : decodeTableWord 16 0xD12F = some (.drw 1 2 15) := by decide
theorem test_decodeBytes : decodeBytes [0xD1, 0x2F, 0x00] = some (.drw 1 2 15, [0x00]) := by decide
theorem test_encodeBytes : encodeBytes (.sneReg 0xC 0xD) = [0x9C, 0xD0] := by decide

/-- Lines of the programs P2, P3 and P4. -/
theorem test_assembly : assembly (.call 0x210) = "CALL 0x210" ∧ assembly (.ldImm 0xA 0x9C) = "LD VA, 0x9C" ∧
    assembly (.storeRegs 2) = "LD [I], V2" ∧ assembly (.ldDtVx 0) = "LD DT, V0" ∧
    assembly .ret = "RET" := by decide +kernel

/-! ### Fetch (R101) -/

/-- F1 and F2: the last word of memory, and a fetch past it. -/
theorem test_fetch_last : (after 0x00E0 (atPc 0xFFE .reset)).pc = 0x1000 := by decide +kernel
theorem test_fetch_past : (stateOr .reset (step (atPc 0xFFF .reset))).run =
    .halted (.addressOutOfRange 0xFFF) := by decide +kernel
/-- F5: no row of family 0x0. -/
theorem test_unknown : (after 0x0123 .reset).run = .halted (.unknownOpcode 0x0123) ∧
    (after 0x0123 .reset).pc = 0x200 := by decide +kernel
/-- F15: a step while waiting. -/
theorem test_waiting_step : step (State.reset.setRun (.waiting 3)) = .next (State.reset.setRun (.waiting 3)) :=
  rfl

/-! ### Control transfer (vectors C) -/

theorem test_ret_C2 : let t := after 0x00EE (withStack 3 [(0, 0x202), (1, 0x30A), (2, 0x412)] (atPc 0x500 .reset))
    t.sp = 2 ∧ t.pc = 0x412 ∧ t.stack[2] = 0x412 := by decide +kernel
theorem test_ret_C1 : let t := after 0x00EE .reset
    t.run = .halted .stackUnderflow ∧ t.sp = 0 ∧ t.pc = 0x200 := by decide +kernel
theorem test_jp_E2 : (after 0x1234 .reset).pc = 0x234 := by decide +kernel
theorem test_call_C5 : let t := after 0x2ABC (withStack 15 [] (atPc 0x300 .reset))
    t.stack[15] = 0x302 ∧ t.sp = 16 ∧ t.pc = 0xABC := by decide +kernel
theorem test_call_C6 : let t := after 0x2ABC (withStack 16 [] (atPc 0x300 .reset))
    t.run = .halted .stackOverflow ∧ t.sp = 16 ∧ t.pc = 0x300 := by decide +kernel
theorem test_seImm_C8 : (after 0x3A42 (withV [(0xA, 0x42)] .reset)).pc = 0x204 := by decide +kernel
theorem test_seImm_C9 : (after 0x3A42 (withV [(0xA, 0x43)] .reset)).pc = 0x202 := by decide +kernel
theorem test_sneImm_C10 : (after 0x4A42 (withV [(0xA, 0x42)] .reset)).pc = 0x202 := by decide +kernel
theorem test_sneImm_C11 : (after 0x4A42 .reset).pc = 0x204 := by decide +kernel
theorem test_seReg_C12 : (after 0x5AB0 (withV [(0xA, 7), (0xB, 7)] .reset)).pc = 0x204 := by decide +kernel
theorem test_sneReg_C14 : (after 0x9AB0 (withV [(0xA, 7), (0xB, 7)] .reset)).pc = 0x202 := by decide +kernel
theorem test_sneReg_C15 : (after 0x9AB0 (withV [(0xA, 7), (0xB, 8)] .reset)).pc = 0x204 := by decide +kernel
theorem test_jpV0_C17 : (after 0xBFFF (withV [(0, 0xFF)] .reset)).pc = 0x10FE := by decide +kernel
theorem test_jpV0_C18 : (after 0xB300 (withV [(0, 0x10)] .reset)).pc = 0x310 := by decide +kernel

/-! ### Loads and ALU (vectors A) -/

theorem test_ldImm_A1 : (after 0x6F05 .reset).getV 0xF = 0x05 := by decide +kernel
theorem test_addImm_A2 : let t := after 0x7AFF (withV [(0xA, 1), (0xF, 7)] .reset)
    t.getV 0xA = 0x00 ∧ t.getV 0xF = 0x07 := by decide +kernel
theorem test_ldReg_A5 : (after 0x8AB0 (withV [(0xB, 0x99)] .reset)).getV 0xA = 0x99 := by decide +kernel
theorem test_orReg_A7 : let t := after 0x8AB1 (withV [(0xA, 0x0F), (0xB, 0xF0), (0xF, 1)] .reset)
    t.getV 0xA = 0xFF ∧ t.getV 0xF = 1 := by decide +kernel
theorem test_andReg_A8 : let t := after 0x8AB2 (withV [(0xA, 0x3C), (0xB, 0x0F), (0xF, 1)] .reset)
    t.getV 0xA = 0x0C ∧ t.getV 0xF = 1 := by decide +kernel
theorem test_xorReg_A9 : let t := after 0x8AB3 (withV [(0xA, 0x3C), (0xB, 0x0F), (0xF, 1)] .reset)
    t.getV 0xA = 0x33 ∧ t.getV 0xF = 1 := by decide +kernel
theorem test_addReg_A16 : (after 0x8FA4 (withV [(0xF, 0xF0), (0xA, 0x20)] .reset)).getV 0xF = 1 := by
  decide +kernel
theorem test_addReg_A17 : let t := after 0x8AF4 (withV [(0xA, 0x10), (0xF, 1)] .reset)
    t.getV 0xA = 0x11 ∧ t.getV 0xF = 0 := by decide +kernel
theorem test_subReg_A18 : let t := after 0x8AB5 (withV [(0xA, 0x05), (0xB, 0x0A)] .reset)
    t.getV 0xA = 0xFB ∧ t.getV 0xF = 0 := by decide +kernel
theorem test_subReg_A19 : let t := after 0x8AB5 (withV [(0xA, 0x0A), (0xB, 0x0A)] .reset)
    t.getV 0xA = 0x00 ∧ t.getV 0xF = 1 := by decide +kernel
theorem test_shrReg_A26 : let t := after 0x8AB6 (withV [(0xA, 0xFF), (0xB, 0x05)] .reset)
    t.getV 0xA = 0x02 ∧ t.getV 0xF = 1 := by decide +kernel
theorem test_shrReg_A27 : let t := after 0x8AB6 (otherQuirks (withV [(0xA, 0xFF), (0xB, 0x05)] .reset))
    t.getV 0xA = 0x7F ∧ t.getV 0xF = 1 := by decide +kernel
theorem test_subnReg_A22 : let t := after 0x8AB7 (withV [(0xA, 0x0A), (0xB, 0x05)] .reset)
    t.getV 0xA = 0xFB ∧ t.getV 0xF = 0 := by decide +kernel
theorem test_subnReg_A23 : let t := after 0x8AB7 (withV [(0xA, 0x05), (0xB, 0x0A)] .reset)
    t.getV 0xA = 0x05 ∧ t.getV 0xF = 1 := by decide +kernel
theorem test_shlReg_A31 : let t := after 0x8ABE (withV [(0xA, 0x01), (0xB, 0x81)] .reset)
    t.getV 0xA = 0x02 ∧ t.getV 0xF = 1 := by decide +kernel
theorem test_shlReg_A34 : (after 0x8FBE (withV [(0xB, 0x40), (0xF, 1)] .reset)).getV 0xF = 0 := by
  decide +kernel
theorem test_rnd_A36 : (after 0xC30F (withEntropy [0xA7] .reset)).getV 3 = 0x07 := by decide +kernel
theorem test_rnd_A37 : let t := after 0xC300 (withEntropy [0xFF, 0x01] (withV [(3, 0x55)] .reset))
    t.getV 3 = 0x00 ∧ t.entropy.fixed = [0x01] := by decide +kernel

/-! ### Index and memory blocks (vectors M) -/

theorem test_ldI_M1 : (after 0xA2F0 (withI 0xFFFF .reset)).i = 0x02F0 := by decide +kernel
theorem test_addI_M4 : let t := after 0xF41E (withI 0x0FFF (withV [(4, 1), (0xF, 7)] .reset))
    t.i = 0x1000 ∧ t.getV 0xF = 7 := by decide +kernel
theorem test_addI_M7 : let t := after 0xFF1E (otherQuirks (withI 0x0FF0 (withV [(0xF, 0x20)] .reset)))
    t.i = 0x1010 ∧ t.getV 0xF = 1 := by decide +kernel
theorem test_ldFont_M8 : (after 0xF229 (withV [(2, 0x0A)] .reset)).i = 0x0032 := by decide +kernel
theorem test_ldFont_M10 : (after 0xF229 (withV [(2, 0xFF)] .reset)).i = 0x04FB := by decide +kernel
theorem test_ldBcd_M11 : let t := after 0xF133 (withI 0x300 (withV [(1, 0x9C)] .reset))
    t.readBytes 0x300 3 = [1, 5, 6] ∧ t.i = 0x300 := by decide +kernel
theorem test_ldBcd_M17 : let t := after 0xF133 (withI 0xFFE (withV [(1, 0x80)] .reset))
    t.run = .halted (.addressOutOfRange 0x1000) ∧ t.readByte 0xFFE = 0 := by decide +kernel
theorem test_storeRegs_M18 :
    let t := after 0xF355 (withI 0x400 (withV [(0, 0x11), (1, 0x22), (2, 0x33), (3, 0x44)] .reset))
    t.readBytes 0x400 5 = [0x11, 0x22, 0x33, 0x44, 0] ∧ t.i = 0x404 := by decide +kernel
theorem test_storeRegs_M21 : let t := after 0xFF55 (withI 0xFF1 (withV [(0, 0xAB)] .reset))
    t.run = .halted (.addressOutOfRange 0x1000) ∧ t.i = 0xFF1 ∧ t.readByte 0xFF1 = 0 := by decide +kernel
theorem test_loadRegs_M23 : let t := after 0xFF65 (withI 0x400 (withMem 0x40F [0x77] (withV [(3, 9)] .reset)))
    t.getV 3 = 0 ∧ t.getV 0xF = 0x77 ∧ t.i = 0x410 := by decide +kernel
theorem test_loadRegs_M24 : (after 0xF065 (withI 0x1000 .reset)).run =
    .halted (.addressOutOfRange 0x1000) := by decide +kernel

/-! ### Framebuffer (vectors D) -/

theorem test_cls_D1 : let t := after 0x00E0 (withCells [(0, 0), (63, 31)] .reset)
    litCount t = 0 ∧ t.redraw = true := by decide +kernel
theorem test_drw_D6 :
    let t := after 0xD012 (withI 0x300 (withMem 0x300 [0x81, 0x81] (withV [(0, 0x7F), (1, 0x3F)] .reset)))
    litCount t = 4 ∧ lit t 63 31 = true ∧ lit t 6 31 = true ∧ lit t 63 0 = true ∧ lit t 6 0 = true := by
  decide +kernel
theorem test_drw_D10 :
    let t := after 0xDFF1 (withI 0x300 (withMem 0x300 [0x80] (withV [(0xF, 2)] (withCells [(2, 2)] .reset))))
    litCount t = 0 ∧ t.getV 0xF = 1 ∧ t.redraw = true := by decide +kernel

/-! ### Keypad and timers (vectors K) -/

theorem test_skp_K1 : (after 0xE59E (withKey 0xA (withV [(5, 0x0A)] (atPc 0x220 .reset)))).pc = 0x224 := by
  decide +kernel
theorem test_skp_K5 : (after 0xE59E (withV [(5, 0x10)] (atPc 0x220 .reset))).run =
    .halted (.keyOutOfRange 0x10) := by decide +kernel
theorem test_sknp_K3 : (after 0xE5A1 (withKey 0xA (withV [(5, 0x0A)] (atPc 0x220 .reset)))).pc = 0x222 := by
  decide +kernel
theorem test_sknp_K4 : (after 0xE5A1 (withV [(5, 0x0A)] (atPc 0x220 .reset))).pc = 0x224 := by decide +kernel
theorem test_ldVxDt_K7 : (after 0xF307 (State.reset.setDT 0x3C)).getV 3 = 0x3C := by decide +kernel
theorem test_ldDtVx_K8 : (after 0xF115 (withV [(1, 0x3C)] .reset)).dt = 0x3C := by decide +kernel
theorem test_ldStVx_K9 : let t := after 0xF118 (withV [(1, 2)] .reset)
    t.st = 2 ∧ t.soundActive = true := by decide +kernel
theorem test_ldVxKey_K10 : let t := after 0xF20A (atPc 0x240 .reset)
    t.run = .waiting 2 ∧ t.pc = 0x242 := by decide +kernel
/-- K13: the edge that ends the wait of K10. -/
theorem test_keyDown_K13 : let t := afterAct (.keyDown 7) (after 0xF20A (atPc 0x240 .reset))
    t.getV 2 = 7 ∧ t.keyDown 7 = true ∧ t.run = .running := by decide +kernel
/-- E8: the tick that brings `ST` from 1 to 0, and a tick at 0. -/
theorem test_tick_E8 : let t := afterAct .tick ((State.reset.setDT 3).setST 1)
    t.dt = 2 ∧ t.st = 0 ∧ (afterAct .tick State.reset).dt = 0 := by decide +kernel
/-- E1: a load at its two limits is in `witness_RomLoadCopiesTheRom`; here a ROM of three bytes. -/
theorem test_load_E1 : let t := stateOr .reset (State.reset.loadRom [0x12, 0x34, 0xAB])
    t.readBytes 0x1FF 5 = [0, 0x12, 0x34, 0xAB, 0] := by decide +kernel
/-- R274: after the reset and before the first step a load has a move. -/
theorem test_load_fresh : ∃ d, act (.load [0x12, 0x34]) Session.start = .next d ∧ d.phase = .loaded :=
  ⟨_, rfl, rfl⟩
/-- R274, U20: once a step has been made it has none, also in exactly the state that the reset leaves. -/
theorem test_load_started : act (.load [0x12, 0x34]) (running .reset) = .refused .loadOutsideBoot := rfl

/-! ### Witnesses of the hypotheses of the obligations -/

theorem witness_DecodeOfEncodeIsIdentity : (Instr.drw 15 15 15).WellFormed := by decide

theorem witness_EncodeOfDecodeIsIdentity : decode 0xD12F = some (.drw 1 2 15) := by decide

theorem witness_DecodeFollowsOpcodeTable :
    rowOf (.shlReg 0 0) ∈ opcodeTable ∧ (0x8ABE : Word) &&& (rowOf (.shlReg 0 0)).mask = (rowOf (.shlReg 0 0)).value := by
  decide +kernel

/-- One word of the mask and value of each `DecodesRow` clause of the statements about instructions. -/
theorem witness_DecodesRow :
    (0x00E0 &&& 0xFFFF = (0x00E0 : Word)) ∧ (0xBFFF &&& 0xF000 = (0xB000 : Word)) ∧
    (0x9FF0 &&& 0xF00F = (0x9000 : Word)) ∧ (0x8FFE &&& 0xF00F = (0x800E : Word)) ∧
    (0xEFA1 &&& 0xF0FF = (0xE0A1 : Word)) ∧ (0xFF65 &&& 0xF0FF = (0xF065 : Word)) := by decide

theorem witness_DecodeConsumesTwoBytes : (Instr.seReg 15 15).WellFormed := by decide

/-- The last word of memory, at an even address, and a word at an odd one. -/
theorem witness_StepRunsDecodedInstruction :
    let s := (atPc 0xFFE .reset).withFetchWord 16 0x00E0
    s.run = .running ∧ s.pc.toNat + 1 ≤ 4095 ∧ decode s.word = some .cls := by decide +kernel

theorem witness_FetchIsBigEndian : (atPc 0xFFE .reset).pc.toNat + 1 ≤ 4095 ∧
    (atPc 0x201 .reset).pc.toNat + 1 ≤ 4095 := by decide

theorem witness_IdleStepsChangeNothing : (State.reset.setRun (.waiting 0)).Waiting ∧
    (State.reset.setRun (.halted .stackOverflow)).Halted := ⟨⟨0, rfl⟩, ⟨.stackOverflow, rfl⟩⟩

/-- At the reset vector, and with a `pc` from which no fetch succeeds. -/
theorem witness_PlacedWordRuns : State.reset.memWf = true ∧ (atPc 0xFFF .reset).memWf = true ∧
    decode (BitVec.ofNat 16 0xDFFF) = some (.drw 15 15 15) ∧
    State.reset.pc.toNat + 1 ≤ 4095 := by decide +kernel

/-- `F155` at 0x200 with `I = 0x202` overwrites the next word. -/
theorem witness_StoredCodeIsFetched :
    let s := withI 0x202 (withV [(0, 0x12), (1, 0x34)] .reset)
    ∃ t, exec (.storeRegs 1) s = .next t ∧ ¬ t.Halted ∧ s.memWf = true ∧
      t.pc.toNat = s.i.toNat + (0 : Reg).val ∧ (1 : Reg).val = (0 : Reg).val + 1 := by
  refine ⟨_, rfl, ?_, rfl, by decide +kernel, rfl⟩
  rintro ⟨e, h⟩
  have hr : (stateOr .reset (exec (.storeRegs 1) (withI 0x202 (withV [(0, 0x12), (1, 0x34)] .reset)))).run =
    .running := by decide +kernel
  exact RunState.noConfusion (hr.symm.trans h)

/-- Both clauses: an error of each stage, and none. -/
theorem witness_StepRaisesExactlyTheListedErrors :
    State.reset.run = .running ∧ State.reset.stepError = some (.unknownOpcode 0) ∧
    (atPc 0xFFF .reset).stepError = some (.addressOutOfRange 0xFFF) ∧
    (State.reset.withFetchWord 16 0x00EE).stepError = some .stackUnderflow ∧
    (State.reset.withFetchWord 16 0x00E0).stepError = none := by decide +kernel

theorem witness_ErrorsArePrecise : ∃ t, step State.reset = .next t ∧ t.Halted :=
  ⟨_, rfl, ⟨.unknownOpcode 0, by decide +kernel⟩⟩

/-- The smallest `I` of each clause. -/
theorem witness_BlockPastMemoryHalts :
    4095 < (withI 0xFFE .reset).i.toNat + 2 ∧ 4095 < (withI 0x1000 .reset).i.toNat + (0 : Reg).val ∧
    4095 < (withI 0xFF1 .reset).i.toNat + (15 : Reg).val ∧
    0 < 15 ∧ 4095 < (withI 0xFF2 .reset).i.toNat + 15 - 1 := by decide

theorem reset_inv : State.reset.Inv := ⟨rfl, by decide, fun _ h => absurd h (Nat.not_lt_zero _)⟩

/-- The invariant with the largest values it allows: a full stack of 0x1000 and `pc` at 0x10FE. -/
theorem witness_StepKeepsInvariant :
    (atPc 0x10FE (withStack 16 ((List.finRange 16).map fun k => (k, 0x1000)) .reset)).Inv ∧
    ∃ t, step (atPc 0x10FE (withStack 16 ((List.finRange 16).map fun k => (k, 0x1000)) .reset)) = .next t :=
  ⟨⟨rfl, by decide, by unfold State.StackInv; decide +kernel⟩, ⟨_, rfl⟩⟩

theorem start_inv : Session.start.Inv := ⟨reset_inv, fun _ => rfl, fun h => Phase.noConfusion h⟩

/-- A session that has made its first step meets the invariant where its machine does. -/
theorem running_inv {s : State} (h : s.Inv) : (running s).Inv :=
  ⟨h, fun h => Phase.noConfusion h, fun h => Phase.noConfusion h⟩

/-- Also a session in the loaded phase, with a ROM of one byte. -/
theorem witness_ReachableStatesMeetInvariant :
    Session.start.Inv ∧ (∃ d, act (.keyDown 15) Session.start = .next d) ∧
    (∃ d, act (.load [0x12]) Session.start = .next d) ∧
    ∃ d, runActions [.step, .tick, .keyDown 3, .keyUp 3, .reset] Session.start = .next d :=
  ⟨start_inv, ⟨_, rfl⟩, ⟨_, rfl⟩, ⟨_, rfl⟩⟩

theorem witness_ParametersNeverChange :
    ∃ d, runActions [.step, .tick, .reset] (running (otherQuirks .reset)) = .next d := ⟨_, rfl⟩

theorem witness_InstructionsWriteOnlyWhatIsListed :
    (∃ t, exec (.storeRegs 15) (withI 0xFF0 .reset) = .next t) ∧
    ∃ t, exec (.ldVxKey 3) State.reset = .next t ∧ t.run ≠ State.reset.run :=
  ⟨⟨_, rfl⟩, ⟨_, rfl, by decide⟩⟩

/-- Two states that differ in what `F055` does not read: `V1`, and the cell it overwrites. -/
theorem witness_InstructionsReadOnlyWhatIsListed :
    let s := withI 0x400 .reset
    let s' := withMem 0x400 [9] (withV [(1, 5)] (withI 0x400 .reset))
    s.memWf = true ∧ s'.memWf = true ∧ s'.pc = s.pc ∧ s'.params = s.params ∧
    (∀ c ∈ Instr.reads (.storeRegs 0), c.same s s') ∧
    (∀ r ∈ Instr.regsRead s.params (.storeRegs 0), s'.getV r = s.getV r) ∧
    Instr.errorOn s (.storeRegs 0) = none ∧
    (∃ t, exec (.storeRegs 0) s = .next t) ∧ ∃ t', exec (.storeRegs 0) s' = .next t' := by
  refine ⟨rfl, by decide +kernel, rfl, rfl, ?_, by decide +kernel, by decide +kernel, ⟨_, rfl⟩, ⟨_, rfl⟩⟩
  intro c hc
  simp only [Instr.reads, List.mem_singleton] at hc
  subst hc
  exact rfl

theorem witness_OnlyRandomReadsEntropy :
    (∀ x nn, decode (State.reset.withFetchWord 16 0x00E0).word ≠ some (.rnd x nn)) ∧
    ∃ t, step (State.reset.withFetchWord 16 0x00E0) = .next t := by
  have h : decode (State.reset.withFetchWord 16 0x00E0).word = some .cls := by decide +kernel
  exact ⟨fun x nn => by rw [h]; simp, ⟨_, rfl⟩⟩

theorem witness_StepLeavesKeypadAndSignalsRedraw :
    ∃ t, step ((withCells [(0, 0)] .reset).withFetchWord 16 0x00E0) = .next t ∧
      t.fb ≠ ((withCells [(0, 0)] .reset).withFetchWord 16 0x00E0).fb := by
  refine ⟨_, rfl, fun h => ?_⟩
  exact absurd (congrArg (fun fb => Framebuffer.cell fb 0 0) h) (by decide +kernel)

/-- The one live entry of a stack of 16, and a dead one. -/
theorem witness_DeadStackEntriesAreUnobservable :
    (withStack 1 [(0, 0x300)] .reset).sp.val ≤ (1 : Fin 16).val ∧
    ∃ t, exec .ret (withStack 1 [(0, 0x300)] .reset) = .next t := ⟨by decide, ⟨_, rfl⟩⟩

/-- Both clauses of `00EE`, at the full and the empty stack. -/
theorem witness_ReturnPopsPc : (withStack 16 [] .reset).sp.val = (15 : Fin 16).val + 1 ∧
    (withStack 1 [] .reset).sp.val = (0 : Fin 16).val + 1 ∧ State.reset.sp = 0 := by decide

/-- Both clauses of `2nnn`, at the empty, the last free and the full stack. -/
theorem witness_CallPushesReturnAddress : State.reset.sp.val = (0 : Fin 16).val ∧
    (withStack 15 [] .reset).sp.val = (15 : Fin 16).val ∧ (withStack 16 [] .reset).sp = 16 := by decide

theorem witness_CallThenReturnResumes : (withStack 15 [] .reset).sp.val < 16 ∧
    ∃ t, exec (.call 0x300) (withStack 15 [] .reset) = .next t := ⟨by decide, ⟨_, rfl⟩⟩

theorem witness_JumpSetsPc : State.reset.run = .running ∧ ∃ t, exec (.jp 0xFFF) State.reset = .next t :=
  ⟨rfl, ⟨_, rfl⟩⟩

theorem witness_ConditionalSkips : (0x5FF1 : Word) &&& 0xF000 = 0x5000 ∧ (0x900F : Word) &&& 0xF000 = 0x9000 ∧
    (0x5FF1 : Word) &&& 0xF ≠ 0 ∧ (0x900F : Word) &&& 0xF ≠ 0 := by decide

theorem witness_ShiftsSetTheBitShiftedOut :
    (0 : Byte) = if State.reset.params.shiftSource = .vy then State.reset.getV 1 else State.reset.getV 0 := by
  decide +kernel

theorem witness_RandomMasksTheNextAnswer : (withEntropy [0xA7] .reset).entropy.fixed = 0xA7 :: [] := rfl

theorem witness_AddToIndexWraps : State.reset.params.indexOverflow = .off ∧
    (otherQuirks .reset).params.indexOverflow = .on := ⟨rfl, rfl⟩

/-- The largest `I`. -/
theorem witness_DecimalDigitsAreStored : (withI 0xFFD .reset).memWf = true ∧
    (withI 0xFFD .reset).i.toNat + 2 ≤ 4095 := by decide

/-- The largest `I` of the longest and of the shortest block. -/
theorem witness_RegisterBlockIsStored : (withI 0xFF0 .reset).memWf = true ∧
    (withI 0xFF0 .reset).i.toNat + (15 : Reg).val ≤ 4095 ∧
    (withI 0xFFF .reset).i.toNat + (0 : Reg).val ≤ 4095 := by decide

theorem witness_RegisterBlockIsLoaded : (withI 0xFF0 .reset).i.toNat + (15 : Reg).val ≤ 4095 ∧
    (withI 0xFFF .reset).i.toNat + (0 : Reg).val ≤ 4095 := by decide

theorem witness_StoreThenLoadRestoresRegisters :
    let s := withI 0xFF0 (withV [(2, 7)] .reset)
    ∃ t u : State, exec (.storeRegs 15) s = .next t ∧ u.mem = t.mem ∧ u.params = t.params ∧ u.i = s.i ∧
      u.getV 2 ≠ s.getV 2 ∧ s.memWf = true ∧ s.i.toNat + (15 : Reg).val ≤ 4095 :=
  ⟨_, { State.reset with mem := _, i := 0xFF0 }, rfl, rfl, rfl, rfl, by decide, rfl, by decide⟩

/-- The largest `I` for 15 rows, and any `I` for none. -/
theorem witness_DrawFlipsExactlyTheSpriteCells : (15 ≤ 15 ∧ (withI 0xFF1 .reset).i.toNat + 15 - 1 ≤ 4095) ∧
    (0 = 0 ∨ (withI 0x5000 .reset).i.toNat + 0 - 1 ≤ 4095) ∧ 63 < 64 ∧ 31 < 32 := by decide

theorem witness_DrawFlips_covers : SpriteCovers State.reset 0 1 5 3 4 ∧ ¬ SpriteCovers State.reset 0 1 0 3 4 := by
  refine ⟨⟨4, 3, by decide, by decide, by decide +kernel, by decide +kernel, by decide +kernel⟩, ?_⟩
  rintro ⟨r, c, h, _⟩
  exact Nat.not_lt_zero r h

theorem witness_DrawingTwiceRestores :
    ∃ t, exec (.drw 0 1 5) State.reset = .next t ∧ t.getV 0 = State.reset.getV 0 ∧
      t.getV 1 = State.reset.getV 1 ∧ State.reset.i.toNat + 5 - 1 ≤ 4095 :=
  ⟨_, rfl, by decide +kernel, by decide +kernel, by decide⟩

/-- The largest key code, and the smallest code that names no key. -/
theorem witness_SkipsOnKey : ((withV [(5, 0xF)] .reset).getV 5).toNat = (15 : Key).val ∧
    0xF < ((withV [(5, 0x10)] .reset).getV 5).toNat := by decide

/-- All clauses: a key already down, an edge while waiting, an edge while running. -/
theorem witness_KeyEdgeResumesAWait : (withKey 15 .reset).keys[15] = true ∧
    (State.reset.setRun (.waiting 15)).keys[15] = false ∧
    (State.reset.setRun (.waiting 15)).run = .waiting 15 ∧ ¬ State.reset.Waiting := by
  refine ⟨by decide, by decide, rfl, ?_⟩
  rintro ⟨x, h⟩
  cases h

theorem witness_KeyUpReleasesOneKey : State.reset.keys[0] = false ∧ (withKey 0 .reset).keys[0] = true := by
  decide

theorem witness_SoundFollowsSoundTimer : ∃ t, exec (.ldStVx 0) (withV [(0, 1)] .reset) = .next t :=
  ⟨_, rfl⟩

/-- A wait with a frame to redraw, a tick in it and the key-down edge that ends it. -/
theorem witness_WaitEndsOnlyByKeyOrReset :
    let c := running ((State.reset.setFB clearFramebuffer).setRun (.waiting 3))
    c.Inv ∧ c.machine.run = .waiting 3 ∧ c.machine.redraw = true ∧ (∃ d, act .tick c = .next d) ∧
      ∃ d, act (.keyDown 0) c = .next d :=
  ⟨running_inv ⟨rfl, by decide, fun _ h => absurd h (Nat.not_lt_zero _)⟩, rfl, rfl, ⟨_, rfl⟩, ⟨_, rfl⟩⟩

theorem witness_HaltEndsOnlyByReset :
    let c := running (State.reset.setRun (.halted .stackOverflow))
    c.Inv ∧ c.machine.run = .halted .stackOverflow ∧ (∃ d, act .tick c = .next d) ∧
      ∃ d, act .reset c = .next d :=
  ⟨running_inv ⟨rfl, by decide, fun _ h => absurd h (Nat.not_lt_zero _)⟩, rfl, ⟨_, rfl⟩, ⟨_, rfl⟩⟩

theorem witness_ConsumeClearsRedraw : State.reset.redraw = false ∧
    (State.reset.setFB clearFramebuffer).redraw = true ∧ 63 < 64 ∧ 31 < 32 := by decide

/-- The longest ROM, and one byte more. -/
theorem witness_RomLoadCopiesTheRom : State.reset.memWf = true ∧
    (List.replicate 3584 (0 : Byte)).length ≤ 3584 ∧ 3584 < (List.replicate 3585 (0 : Byte)).length :=
  ⟨rfl, by rw [List.length_replicate], by rw [List.length_replicate]; decide⟩

/-- Both answers of the loader, both phases without a load, an action of each kind, and a run with a reset between a
step and a load. -/
theorem witness_RomLoadOnlyAtBoot :
    (∃ t, State.reset.loadRom [0x12, 0x34] = .next t) ∧
    State.reset.loadRom (List.replicate 3585 0) = .fault .romTooLarge ∧
    (running .reset).phase ≠ .fresh ∧ ({ machine := .reset, phase := .loaded } : Session).phase ≠ .fresh ∧
    (∃ d, act .reset (running .reset) = .next d) ∧ (∃ d, act .step Session.start = .next d) ∧
    ∃ d, runActions ([] ++ .step :: [.reset] ++ [.load [0x12, 0x34]]) (running .reset) = .next d :=
  ⟨⟨_, if_neg (by decide)⟩, if_pos (by rw [List.length_replicate]; decide), by decide, by decide, ⟨_, rfl⟩,
    ⟨_, rfl⟩, ⟨_, rfl⟩⟩

theorem witness_BootRunsTheFirstRomWord :
    (∃ d, act (.load [0x00, 0xE0, 0x12]) Session.start = .next d) ∧
    decode ((0x00 : Byte).setWidth 16 <<< 8 ||| (0xE0 : Byte).setWidth 16) = some .cls :=
  ⟨⟨_, rfl⟩, by decide⟩

end Sys2Proof.Tests
end

section
/-! SUPPORT. What an instruction does when its own check passes, as the handler's effect and its `pc` outcome (spec
40_engine.md R103, R104), and what a step can do. -/

namespace Sys2Proof

open Sys2Proof.Machine

/-- The pc outcome of an instruction whose check passes (R103): four jumps, six skips, else the next word. -/
def Instr.outcome (s : State) : Instr → PcOutcome
  | .ret => .jump s.stack[s.sp.val - 1]
  | .jp nnn | .call nnn => .jump (zextAddr nnn)
  | .jpV0 nnn => .jump (s.indexedTarget nnn)
  | .seImm x nn => skipIf (s.getV x == nn)
  | .sneImm x nn => skipIf (s.getV x != nn)
  | .seReg x y => skipIf (s.getV x == s.getV y)
  | .sneReg x y => skipIf (s.getV x != s.getV y)
  | .skp x => skipIf (s.keyDown (Fin.ofNat 16 (s.getV x).toNat) == true)
  | .sknp x => skipIf (s.keyDown (Fin.ofNat 16 (s.getV x).toNat) == false)
  | _ => .next

/-- The state of an instruction whose check passes, before `pc` is set (R103): `exec` is this and then `finish`. -/
def Instr.effect (s : State) : Instr → State
  | .cls => s.setFB clearFramebuffer
  | .ret => { s with sp := Fin.ofNat 17 (s.sp.val - 1) }
  | .call _ => { s with stack := s.stack.setIfInBounds s.sp.val (s.pc + 2), sp := Fin.ofNat 17 (s.sp.val + 1) }
  | .ldImm x nn => s.setV x nn
  | .addImm x nn => s.setV x (sumByte (s.getV x) nn)
  | .ldReg x y => s.setV x (s.getV y)
  | .orReg x y => s.setV x (s.getV x ||| s.getV y)
  | .andReg x y => s.setV x (s.getV x &&& s.getV y)
  | .xorReg x y => s.setV x (s.getV x ^^^ s.getV y)
  | .addReg x y => s.setResultAndFlag x (sumByte (s.getV x) (s.getV y)) (carry (s.getV x) (s.getV y))
  | .subReg x y => s.setResultAndFlag x (diffByte (s.getV x) (s.getV y)) (noBorrow (s.getV x) (s.getV y))
  | .shrReg x y => s.setResultAndFlag x (shiftRight1 (s.shiftOperand x y)) (lowBitOut (s.shiftOperand x y))
  | .subnReg x y => s.setResultAndFlag x (diffByte (s.getV y) (s.getV x)) (noBorrow (s.getV y) (s.getV x))
  | .shlReg x y => s.setResultAndFlag x (shiftLeft1 (s.shiftOperand x y)) (highBitOut (s.shiftOperand x y))
  | .ldI nnn => s.setI (zextAddr nnn)
  | .rnd x nn => s.drawn.setV x (s.entropy.answer &&& nn)
  | .drw x y n => (s.setFB (s.drawSprite x y n).1).setVF (flagByte (s.drawSprite x y n).2)
  | .ldVxDt x => s.setV x s.dt
  | .ldVxKey x => s.setRun (.waiting x)
  | .ldDtVx x => s.setDT (s.getV x)
  | .ldStVx x => s.setST (s.getV x)
  | .addI x => (s.setI (indexSum s.i (s.getV x))).setIndexFlag s.params.indexOverflow
      (indexOverflows s.i (s.getV x))
  | .ldFont x => s.setI (fontAddress (s.getV x))
  | .ldBcd x => s.writeBytes s.i.toNat (decimalDigits (s.getV x))
  | .storeRegs x => (s.writeBytes s.i.toNat (s.getVs 0 (blockLength x))).setI (indexPast s.i x)
  | .loadRegs x => (s.setVs 0 (s.readBytes s.i.toNat (blockLength x))).setI (indexPast s.i x)
  | .jp _ | .jpV0 _ | .seImm _ _ | .sneImm _ _ | .seReg _ _ | .sneReg _ _ | .skp _ | .sknp _ => s

/-- The state of an instruction whose check passes. -/
def Instr.completed (i : Instr) (s : State) : State := (i.effect s).finish (i.outcome s)

end Sys2Proof

namespace Sys2Proof.Machine

/-! ### What `exec` answers -/

/-- A key test whose code names a key skips or not. -/
theorem State.testKey_of_noError {s : State} {x : Reg} (h : keyError s x = none) (down : Bool) :
    s.testKey (s.getV x) down =
      s.finish (skipIf (s.keyDown (Fin.ofNat 16 (s.getV x).toNat) == down)) := by
  have hlt := code_lt_of_noError h
  have hk : Fin.ofNat 16 (s.getV x).toNat = ⟨(s.getV x).toNat, hlt⟩ := Fin.ext (Nat.mod_eq_of_lt hlt)
  simp only [State.testKey, keyOfCode_of_lt _ hlt, hk]

/-- An instruction whose own check passes completes. -/
theorem exec_completes {i : Instr} {s : State} (h : i.errorOn s = none) :
    exec i s = .next (i.completed s) := by
  cases i
  case ret =>
    have hsp := sp_pos_of_noError h
    have : Fin.ofNat 17 (s.sp.val - 1) = ⟨s.sp.val - 1, by omega⟩ := Fin.ext (Nat.mod_eq_of_lt (by omega))
    simp only [exec, execRet, State.pop_of_pos s hsp, Instr.completed, Instr.effect, Instr.outcome, this]
  case call nnn =>
    have hsp := sp_lt_of_noError h
    have : Fin.ofNat 17 (s.sp.val + 1) = ⟨s.sp.val + 1, by omega⟩ := Fin.ext (Nat.mod_eq_of_lt (by omega))
    have hset : s.stack.setIfInBounds s.sp.val (s.pc + 2) = s.stack.set s.sp.val (s.pc + 2) :=
      Vector.ext fun j hj => by rw [Vector.getElem_setIfInBounds, Vector.getElem_set]
    simp only [exec, execCall, State.push_of_lt s _ hsp, Instr.completed, Instr.effect, Instr.outcome, this,
      hset, pcAfter_next]
  case drw => exact congrArg _ (State.withBlock_of_noError s _ _ h)
  case ldBcd => exact congrArg _ (State.withBlock_of_noError s _ _ h)
  case storeRegs => exact congrArg _ (State.withBlock_of_noError s _ _ h)
  case loadRegs => exact congrArg _ (State.withBlock_of_noError s _ _ h)
  case skp => exact congrArg _ (State.testKey_of_noError h true)
  case sknp => exact congrArg _ (State.testKey_of_noError h false)
  all_goals rfl

/-- Everything an instruction can do: record the error of its check, or complete. -/
theorem exec_cases {i : Instr} {s t : State} (h : exec i s = .next t) :
    (∃ e, i.errorOn s = some e ∧ t = s.setRun (.halted e)) ∨ (i.errorOn s = none ∧ t = i.completed s) := by
  cases he : i.errorOn s with
  | some e => exact .inl ⟨e, rfl, by simpa [exec_of_error i s e he] using h.symm⟩
  | none => exact .inr ⟨rfl, by simpa [exec_completes he] using h.symm⟩

/-! ### What `step` answers -/

/-- The fetch, in the spelling of claims. -/
theorem State.fetch_eq_word {s : State} (h : s.pc.toNat + 1 ≤ 4095) : s.fetch = some s.word := by
  rw [State.fetch_of_le s h, joinBytes_eq_or, State.word]

/-- A running step whose word decodes is that instruction. -/
theorem step_eq_exec {s : State} {i : Instr} (hr : s.run = .running) (hpc : s.pc.toNat + 1 ≤ 4095)
    (hd : decode s.word = some i) : step s = exec i s := by
  simp only [step, stepEngine, hr, stepRunning, State.fetch_eq_word hpc, hd]

/-- Everything a step can do: nothing, record an error of the fetch, the decoder or the instruction, or complete the
instruction at `pc`. -/
theorem step_cases {s t : State} (h : step s = .next t) :
    t = s ∨ (∃ e, t = s.setRun (.halted e)) ∨
    (∃ i, s.run = .running ∧ s.pc.toNat + 1 ≤ 4095 ∧ decode s.word = some i ∧ i.errorOn s = none ∧
      t = i.completed s) := by
  cases hr : s.run with
  | waiting x => simp only [step, stepEngine, hr] at h; cases h; exact .inl rfl
  | halted e => simp only [step, stepEngine, hr] at h; cases h; exact .inl rfl
  | running =>
    by_cases hpc : s.pc.toNat + 1 ≤ 4095
    · cases hd : decode s.word with
      | none =>
        simp only [step, stepEngine, hr, stepRunning, State.fetch_eq_word hpc, hd] at h
        cases h
        exact .inr (.inl ⟨_, rfl⟩)
      | some i =>
        rw [step_eq_exec hr hpc hd] at h
        obtain ⟨e, -, rfl⟩ | ⟨he, rfl⟩ := exec_cases h
        · exact .inr (.inl ⟨e, rfl⟩)
        · exact .inr (.inr ⟨i, rfl, hpc, rfl, he, rfl⟩)
    · simp only [step, stepEngine, hr, stepRunning, State.fetch_of_gt s (by omega)] at h
      cases h
      exact .inr (.inl ⟨_, rfl⟩)

end Sys2Proof.Machine
end

section
/-! PROOFS. Frames: a rule for each update of the state, the frame of every instruction, and the statements about
what no instruction or action changes (spec 10_state.md R30, R31, R34 to R36). -/

namespace Sys2Proof.Machine

/-! ### Frames of updates -/

/-- From `s` to `t` at most the components `cs`, the registers `rs` and the `n` cells from `a` on change. -/
structure Frame (cs : List Component) (rs : List Reg) (a n : Nat) (s t : State) : Prop where
  components : ChangesOnly cs s t
  regs : RegsSameBut rs s t
  cells : MemSameOutside a n s t

theorem Component.same_trans {c : Component} {s t u : State} (h : c.same s t) (h' : c.same t u) : c.same s u := by
  cases c <;> simp_all [Component.same]

namespace Frame

variable {cs : List Component} {rs : List Reg} {a n : Nat} {s t u : State}

theorem trans (h : Frame cs rs a n s t) (h' : Frame cs rs a n t u) : Frame cs rs a n s u where
  components c hc := Component.same_trans (h.components c hc) (h'.components c hc)
  regs r hr := (h'.regs r hr).trans (h.regs r hr)
  cells b hb := (h'.cells b hb).trans (h.cells b hb)

/-- An update that leaves registers and memory alone. -/
theorem update (h : Frame cs rs a n s t) (hu : ChangesOnly cs t u) (hv : ∀ r, u.getV r = t.getV r)
    (hm : ∀ b, u.readByte b = t.readByte b) : Frame cs rs a n s u :=
  h.trans ⟨hu, fun r _ => hv r, fun b _ => hm b⟩

theorem mono {ds : List Component} (h : Frame cs rs a n s t) (hsub : ∀ c ∈ cs, c ∈ ds) :
    Frame ds rs a n s t :=
  ⟨fun c hc => h.components c fun hm => hc (hsub c hm), h.regs, h.cells⟩

@[simp] theorem refl : Frame cs rs a n s s :=
  ⟨fun c _ => by cases c <;> simp [Component.same], fun _ _ => rfl, fun _ _ => rfl⟩

@[simp] theorem setI {w : Word} (hc : .i ∈ cs) (h : Frame cs rs a n s t) : Frame cs rs a n s (t.setI w) :=
  h.update (fun c _ => by cases c <;> simp_all [Component.same]) (fun _ => rfl) fun _ => rfl

@[simp] theorem setDT {b : Byte} (hc : .dt ∈ cs) (h : Frame cs rs a n s t) : Frame cs rs a n s (t.setDT b) :=
  h.update (fun c _ => by cases c <;> simp_all [Component.same]) (fun _ => rfl) fun _ => rfl

@[simp] theorem setST {b : Byte} (hc : .st ∈ cs) (h : Frame cs rs a n s t) : Frame cs rs a n s (t.setST b) :=
  h.update (fun c _ => by cases c <;> simp_all [Component.same]) (fun _ => rfl) fun _ => rfl

@[simp] theorem setRun {r : RunState} (hc : .run ∈ cs) (h : Frame cs rs a n s t) :
    Frame cs rs a n s (t.setRun r) :=
  h.update (fun c _ => by cases c <;> simp_all [Component.same]) (fun _ => rfl) fun _ => rfl

@[simp] theorem setFB {fb : Framebuffer} (hc : .fb ∈ cs) (hr : .redraw ∈ cs) (h : Frame cs rs a n s t) :
    Frame cs rs a n s (t.setFB fb) :=
  h.update (fun c _ => by cases c <;> simp_all [Component.same]) (fun _ => rfl) fun _ => rfl

/-- An update of the stack pointer, and of the entries where they may change. -/
theorem setStack {S : Vector Word 16} {k : Fin 17} (hS : .stack ∈ cs ∨ S = t.stack) (hc : .sp ∈ cs)
    (h : Frame cs rs a n s t) : Frame cs rs a n s { t with stack := S, sp := k } := by
  refine h.update (fun c _ => ?_) (fun _ => rfl) fun _ => rfl
  cases c
  case mem | v => exact fun _ => rfl
  all_goals simp_all [Component.same]

@[simp] theorem drawn (hc : .entropy ∈ cs) (h : Frame cs rs a n s t) : Frame cs rs a n s t.drawn :=
  h.update (fun c _ => by cases c <;> simp_all [Component.same]) (fun _ => rfl) fun _ => rfl

@[simp] theorem finish {o : PcOutcome} (hc : .pc ∈ cs) (h : Frame cs rs a n s t) :
    Frame cs rs a n s (t.finish o) :=
  h.update (fun c _ => by cases c <;> simp_all [Component.same]) (fun _ => rfl) fun _ => rfl

@[simp] theorem setV {x : Reg} {b : Byte} (hc : .v ∈ cs) (hx : x ∈ rs) (h : Frame cs rs a n s t) :
    Frame cs rs a n s (t.setV x b) := by
  refine h.trans ⟨fun c _ => by cases c <;> simp_all [Component.same], fun r hr => ?_, fun _ _ => rfl⟩
  rw [State.getV_setV, if_neg fun hrx : r = x => hr (hrx ▸ hx)]

/-- The registers that a block write from V0 on may change. -/
@[simp] theorem setVs {us : List Byte} (hc : .v ∈ cs) (hl : us.length ≤ 16)
    (hx : ∀ r : Reg, r.val < us.length → r ∈ rs) (h : Frame cs rs a n s t) :
    Frame cs rs a n s (t.setVs 0 us) := by
  refine h.trans ⟨fun c _ => by cases c <;> simp_all [Component.same], fun r hr => ?_, fun _ _ => by simp⟩
  exact State.getV_setVs_outside _ _ _ _ (by omega) fun hin => hr (hx r (by omega))

@[simp] theorem writeBytes {us : List Byte} (hc : .mem ∈ cs) (hl : us.length ≤ n)
    (h : Frame cs rs a n s t) : Frame cs rs a n s (t.writeBytes a us) := by
  refine h.trans ⟨fun c _ => by cases c <;> simp_all [Component.same], fun r hr => by simp, fun b hb => ?_⟩
  exact State.readByte_writeBytes_outside _ _ _ _ (by omega)

end Frame

/-! ### The frame of every instruction -/

@[simp] theorem decimalDigits_length (b : Byte) : (decimalDigits b).length = 3 := rfl

theorem mem_blockRegs {x r : Reg} : r ∈ blockRegs x ↔ r.val ≤ x.val := by simp [blockRegs]

theorem pc_mem_writes (i : Instr) (p : Params) : .pc ∈ i.writes p := by
  cases i
  case addI => cases h : p.indexOverflow <;> simp [Instr.writes, h]
  all_goals simp [Instr.writes]

/-- The effect of an instruction stays within what R34, R35 and R57 list for it. -/
theorem effect_frame (i : Instr) (s : State) :
    Frame (i.writes s.params) (i.regsWritten s.params) s.i.toNat i.cellsStored s (i.effect s) := by
  cases i
  case ret => exact Frame.refl.setStack (.inr rfl) (by simp [Instr.writes])
  case call => exact Frame.refl.setStack (.inl (by simp [Instr.writes])) (by simp [Instr.writes])
  case addI => cases h : s.params.indexOverflow <;> simp [Instr.effect, Instr.writes, Instr.regsWritten, h]
  case ldBcd => exact Frame.refl.writeBytes (by simp [Instr.writes]) (by rfl)
  case loadRegs x =>
    have hx : ∀ r : Reg, r.val < (s.readBytes s.i.toNat (blockLength x)).length → r ∈ blockRegs x :=
      fun r hr => mem_blockRegs.2 (Nat.le_of_lt_succ (by rwa [State.readBytes_length] at hr))
    exact (Frame.refl.setVs (by simp [Instr.writes]) (by rw [State.readBytes_length]; exact x.isLt) hx).setI
      (by simp [Instr.writes])
  all_goals simp [Instr.effect, Instr.writes, Instr.regsWritten, Instr.cellsStored]

theorem completed_frame (i : Instr) (s : State) :
    Frame (i.writes s.params) (i.regsWritten s.params) s.i.toNat i.cellsStored s (i.completed s) :=
  (effect_frame i s).finish (pc_mem_writes i s.params)

/-- `run` changes only by an error or by `Fx0A`. -/
theorem exec_run {i : Instr} {s t : State} (h : exec i s = .next t) (hr : t.run ≠ s.run) :
    t.Halted ∨ ∃ x, i = .ldVxKey x := by
  obtain ⟨e, -, rfl⟩ | ⟨he, -⟩ := exec_cases h
  · exact .inl ⟨e, rfl⟩
  · obtain ⟨u, hu, hrun | ⟨x, rfl, -⟩⟩ := exec_of_noError i s he
    · cases h.symm.trans hu
      exact absurd hrun hr
    · exact .inr ⟨x, rfl⟩

/-- Settles O21: an error changes `run` alone, and a completed instruction stays within its frame. -/
theorem instructionsWriteOnlyWhatIsListed : Obligations.InstructionsWriteOnlyWhatIsListed := by
  intro i s t h
  have hf : Frame (.run :: i.writes s.params) (i.regsWritten s.params) s.i.toNat i.cellsStored s t := by
    obtain ⟨e, -, rfl⟩ | ⟨-, rfl⟩ := exec_cases h
    · exact Frame.refl.setRun (by simp)
    · exact (completed_frame i s).mono fun c hc => List.mem_cons_of_mem _ hc
  exact ⟨hf.components, hf.regs, hf.cells, exec_run h⟩

/-! ### What no step and no action changes -/

/-- No instruction writes the parameters or the keypad (R30, R36). -/
theorem params_keys_notMem_writes (i : Instr) (p : Params) : .params ∉ i.writes p ∧ .keys ∉ i.writes p := by
  cases i
  case addI => cases h : p.indexOverflow <;> simp [Instr.writes, h]
  all_goals simp [Instr.writes]

/-- An instruction that may write `FB` or `redraw` leaves `redraw` set. -/
theorem completed_redraw {i : Instr} {s : State} (h : .fb ∈ i.writes s.params ∨ .redraw ∈ i.writes s.params) :
    (i.completed s).redraw = true := by
  cases i
  case cls | drw => rfl
  case addI => cases hq : s.params.indexOverflow <;> simp [Instr.writes, hq] at h
  all_goals simp [Instr.writes] at h

theorem step_params {s t : State} (h : step s = .next t) : t.params = s.params := by
  obtain rfl | ⟨e, rfl⟩ | ⟨i, -, -, -, -, rfl⟩ := step_cases h
  · rfl
  · rfl
  · exact (completed_frame i s).components .params (params_keys_notMem_writes i s.params).1

/-- A key-down edge writes keys, registers and `run` alone. -/
theorem State.pressKey_fields (s : State) (k : Key) :
    ∃ v ks r, s.pressKey k = { s with v := v, keys := ks, run := r } := by
  unfold State.pressKey
  split <;> exact ⟨_, _, _, rfl⟩

theorem State.pressKey_params (s : State) (k : Key) : (s.pressKey k).params = s.params := by
  obtain ⟨v, ks, r, h⟩ := State.pressKey_fields s k
  rw [h]

theorem act_params {a : Action} {c d : Session} (h : act a c = .next d) :
    d.machine.params = c.machine.params := by
  obtain ⟨-, hs, -⟩ | ⟨-, rfl⟩ | ⟨k, -, -, rfl⟩ | ⟨k, -, -, rfl⟩ | ⟨-, -, rfl⟩ | ⟨-, rfl⟩ |
    ⟨rom, -, -, -, rfl⟩ := act_cases h
  · exact step_params hs
  · rfl
  · exact State.pressKey_params c.machine k
  · rfl
  · rfl
  · rfl
  · exact State.writeBytes_params rom c.machine _

/-- Settles O20, by induction over the actions. -/
theorem parametersNeverChange : Obligations.ParametersNeverChange := by
  intro actions c d h
  exact runActions_induct (P := fun d => d.machine.params = c.machine.params)
    (fun _ _ _ hc ha => (act_params ha).trans hc) rfl h

/-- Settles O24: only `00E0` and `Dxyn` may write `FB` or `redraw`, and both set `redraw`. -/
theorem stepLeavesKeypadAndSignalsRedraw : Obligations.StepLeavesKeypadAndSignalsRedraw := by
  intro s t h
  obtain rfl | ⟨e, rfl⟩ | ⟨i, -, -, -, -, rfl⟩ := step_cases h
  · exact ⟨rfl, id, fun hne => absurd rfl hne⟩
  · exact ⟨rfl, id, fun hne => absurd rfl hne⟩
  · have hf := (completed_frame i s).components
    refine ⟨hf .keys (params_keys_notMem_writes i s.params).2, fun hr => ?_, fun hne => ?_⟩
    · by_cases hw : .redraw ∈ i.writes s.params
      · exact completed_redraw (.inr hw)
      · exact (hf .redraw hw).trans hr
    · by_cases hw : .fb ∈ i.writes s.params
      · exact completed_redraw (.inl hw)
      · exact absurd (hf .fb hw) hne

end Sys2Proof.Machine
end

section
/-! PROOFS. The invariant of reachable states (spec 10_state.md R45): kept by every completed instruction and every
step, and met by the state after a reset. -/

namespace Sys2Proof.Machine

/-! ### Canonical memory -/

/-- The cells of a block that raises no error lie in the address space. -/
theorem block_le_of_noError {s : State} {n : Nat} (h : blockError s n = none) (hn : 0 < n) :
    s.i.toNat + n ≤ 4096 := by
  unfold blockError at h
  split at h
  · cases h
  · omega

theorem State.memWf_setVs (s : State) (r : Nat) (us : List Byte) : (s.setVs r us).memWf = s.memWf :=
  State.memWf_congr (by simp) (by simp)

theorem completed_memWf {i : Instr} {s : State} (he : i.errorOn s = none) (h : s.memWf = true) :
    (i.completed s).memWf = true := by
  rw [Instr.completed, State.memWf_finish]
  cases i
  case ldBcd => exact State.memWf_writeBytes _ _ _ (block_le_of_noError he (Nat.succ_pos 2)) h
  case storeRegs x =>
    refine State.memWf_writeBytes _ _ _ ?_ h
    rw [State.getVs_length]
    exact block_le_of_noError he (Nat.succ_pos _)
  case loadRegs => exact (State.memWf_setVs _ _ _).trans h
  case addI =>
    rw [Instr.effect]
    cases s.params.indexOverflow <;> simpa using h
  all_goals exact h

/-! ### `pc` and the stack -/

theorem zextAddr_toNat (nnn : Addr) : (zextAddr nnn).toNat = nnn.toNat := by
  rw [zextAddr, BitVec.toNat_setWidth]
  exact Nat.mod_eq_of_lt (nnn.isLt.trans (by decide))

theorem State.indexedTarget_toNat (s : State) (nnn : Addr) :
    (s.indexedTarget nnn).toNat = (s.getV 0).toNat + nnn.toNat := by
  have := (s.getV 0).isLt
  have := nnn.isLt
  simp only [State.indexedTarget, BitVec.toNat_add, zextAddr_toNat, zextByte, BitVec.toNat_setWidth]
  omega

theorem toNat_add_two {pc : Word} (h : pc.toNat + 1 ≤ 4095) : (pc + 2).toNat = pc.toNat + 2 := by
  rw [BitVec.toNat_add]
  exact Nat.mod_eq_of_lt (by change pc.toNat + 2 < 65536; omega)

/-- The next word and the one after it are in bounds (R104). -/
theorem pcAfter_skipIf_le {pc : Word} (h : pc.toNat + 1 ≤ 4095) (b : Bool) :
    (pcAfter pc (skipIf b)).toNat ≤ 0x10FE := by
  rw [pcAfter_skipIf]
  split
  · rw [BitVec.toNat_add, Nat.mod_eq_of_lt (by change pc.toNat + 4 < 65536; omega)]
    change pc.toNat + 4 ≤ 0x10FE
    omega
  · rw [toNat_add_two h]
    omega

theorem effect_pc (i : Instr) (s : State) : (i.effect s).pc = s.pc := by
  cases i
  case addI => rw [Instr.effect]; cases s.params.indexOverflow <;> simp
  all_goals simp [Instr.effect]

/-- The largest target is the largest sum of `V0` and `nnn` (R127). -/
theorem completed_pc_le {i : Instr} {s : State} (he : i.errorOn s = none) (hpc : s.pc.toNat + 1 ≤ 4095)
    (hs : s.StackInv) : (i.completed s).pc.toNat ≤ 0x10FE := by
  rw [Instr.completed, State.finish_pc, effect_pc]
  cases i
  case ret =>
    have hsp := sp_pos_of_noError he
    exact (hs ⟨s.sp.val - 1, by omega⟩ (Nat.sub_lt hsp one_pos)).2.trans (by decide)
  case jp nnn | call nnn =>
    have := nnn.isLt
    simp only [Instr.outcome, pcAfter_jump, zextAddr_toNat]
    omega
  case jpV0 nnn =>
    have := (s.getV 0).isLt
    have := nnn.isLt
    simp only [Instr.outcome, pcAfter_jump, State.indexedTarget_toNat]
    omega
  case seImm | sneImm | seReg | sneReg | skp | sknp => exact pcAfter_skipIf_le hpc _
  all_goals exact pcAfter_skipIf_le hpc false

/-- The live entries of a state are those of another with the same stack and no larger `sp`. -/
theorem State.StackInv.of_le {s t : State} (h : s.StackInv) (hS : t.stack = s.stack) (hsp : t.sp.val ≤ s.sp.val) :
    t.StackInv := by
  intro k hk
  simp only [hS]
  exact h k (by omega)

/-- Only `00EE` and `2nnn` write the stack or its pointer. -/
theorem ret_or_call_of_mem_writes {i : Instr} {p : Params} (h : .stack ∈ i.writes p ∨ .sp ∈ i.writes p) :
    i = .ret ∨ ∃ nnn, i = .call nnn := by
  cases i
  case ret => exact .inl rfl
  case call nnn => exact .inr ⟨nnn, rfl⟩
  case addI => cases hq : p.indexOverflow <;> simp [Instr.writes, hq] at h
  all_goals simp [Instr.writes] at h

/-- A call pushes an address from 0x002 to 0x1000 and keeps the entries below. -/
theorem completed_call_stackInv {nnn : Addr} {s : State} (he : Instr.errorOn s (.call nnn) = none)
    (hpc : s.pc.toNat + 1 ≤ 4095) (hs : s.StackInv) : ((Instr.call nnn).completed s).StackInv := by
  have hsp := sp_lt_of_noError he
  intro k hk
  change k.val < (s.sp.val + 1) % 17 at hk
  change 2 ≤ ((s.stack.setIfInBounds s.sp.val (s.pc + 2))[k.val]).toNat ∧
    ((s.stack.setIfInBounds s.sp.val (s.pc + 2))[k.val]).toNat ≤ 0x1000
  rw [Vector.getElem_setIfInBounds]
  split
  · rw [toNat_add_two hpc]; omega
  · exact hs k (by omega)

theorem completed_stackInv {i : Instr} {s : State} (he : i.errorOn s = none) (hpc : s.pc.toNat + 1 ≤ 4095)
    (hs : s.StackInv) : (i.completed s).StackInv := by
  by_cases hw : .stack ∈ i.writes s.params ∨ .sp ∈ i.writes s.params
  · obtain rfl | ⟨nnn, rfl⟩ := ret_or_call_of_mem_writes hw
    · refine hs.of_le rfl ?_
      change (s.sp.val - 1) % 17 ≤ s.sp.val
      omega
    · exact completed_call_stackInv he hpc hs
  · have hf := (completed_frame i s).components
    exact hs.of_le (hf .stack fun h => hw (.inl h)) (Fin.le_of_eq (hf .sp fun h => hw (.inr h)))

/-! ### Every step keeps the invariant -/

/-- A state with the memory, parameters, `pc` and stack of one that meets the invariant meets it. -/
theorem State.Inv.of_same {s t : State} (h : s.Inv) (hm : t.mem = s.mem) (hp : t.params = s.params)
    (hpc : t.pc = s.pc) (hS : t.stack = s.stack) (hsp : t.sp = s.sp) : t.Inv where
  memory := (State.memWf_congr hm hp).trans h.memory
  pc := hpc ▸ h.pc
  stack := h.stack.of_le hS (Fin.le_of_eq hsp)

theorem step_inv {s t : State} (hs : s.Inv) (h : step s = .next t) : t.Inv := by
  obtain rfl | ⟨e, rfl⟩ | ⟨i, -, hpc, -, he, rfl⟩ := step_cases h
  · exact hs
  · exact hs.of_same rfl rfl rfl rfl rfl
  · exact ⟨completed_memWf he hs.memory, completed_pc_le he hpc hs.stack, completed_stackInv he hpc hs.stack⟩

/-- Settles O17: an idle step and an error change neither memory, `pc` nor stack, and a completed instruction keeps
each of the three bounds. -/
theorem stepKeepsInvariant : Obligations.StepKeepsInvariant := fun _ _ => step_inv

/-! ### The reset state -/

theorem resetWith_inv (p : Params) (e : Entropy) : (State.resetWith p e).Inv where
  memory := State.memWf_resetWith p e
  pc := by rw [State.resetWith_pc]; decide
  stack := fun _ hk => absurd hk (Nat.not_lt_zero _)

/-- Settles O18. -/
theorem resetMeetsInvariant : Obligations.ResetMeetsInvariant := ⟨resetWith_inv _ _, resetWith_inv⟩

end Sys2Proof.Machine
end

section
/-! PROOFS. The invariant of sessions (spec 70_reset_and_hazards.md R273, R274): every action of every agent keeps
it. -/

namespace Sys2Proof.Machine

/-! ### Every action keeps the machine's invariant -/

theorem act_machine_inv {a : Action} {c d : Session} (hc : c.machine.Inv) (h : act a c = .next d) :
    d.machine.Inv := by
  obtain ⟨-, hs, -⟩ | ⟨-, rfl⟩ | ⟨k, -, -, rfl⟩ | ⟨k, -, -, rfl⟩ | ⟨-, -, rfl⟩ | ⟨-, rfl⟩ |
    ⟨rom, -, -, hl, rfl⟩ := act_cases h
  · exact step_inv hc hs
  · exact hc.of_same rfl rfl rfl rfl rfl
  · obtain ⟨v, ks, r, hk⟩ := State.pressKey_fields c.machine k
    exact hc.of_same (by rw [hk]) (by rw [hk]) (by rw [hk]) (by rw [hk]) (by rw [hk])
  · exact hc.of_same rfl rfl rfl rfl rfl
  · exact hc.of_same rfl rfl rfl rfl rfl
  · exact resetWith_inv _ _
  · have hle : Config.progBase + rom.length ≤ 4096 := Nat.add_le_add_left hl 0x200
    exact ⟨State.memWf_writeBytes rom _ _ hle hc.memory, by simpa using hc.pc,
      hc.stack.of_le (by simp) (by simp)⟩

/-! ### Before the first step -/

/-- The machine is as a reset leaves it, but for memory and keys. -/
def State.AtBoot (s : State) : Prop :=
  ∃ p e m ks, s = { State.resetWith p e with mem := m, keys := ks }

theorem State.atBoot_iff {s : State} :
    s.AtBoot ↔ s = { s.resetNow with mem := s.mem, keys := s.keys } := by
  constructor
  · rintro ⟨p, e, m, ks, rfl⟩; rfl
  · exact fun h => ⟨_, _, _, _, h⟩

theorem State.atBoot_and_mem_iff {s : State} :
    s.AtBoot ∧ s.mem = [] ↔ s = { s.resetNow with keys := s.keys } := by
  constructor
  · rintro ⟨⟨p, e, m, ks, rfl⟩, hm⟩
    cases hm
    rfl
  · exact fun h => ⟨⟨_, _, _, _, h⟩, congrArg (·.mem) h⟩

theorem State.AtBoot.tick {s : State} (h : s.AtBoot) : s.tick.AtBoot := by
  obtain ⟨p, e, m, ks, rfl⟩ := h
  exact ⟨p, e, m, ks, rfl⟩

theorem State.AtBoot.pressKey {s : State} (h : s.AtBoot) (k : Key) : (s.pressKey k).AtBoot := by
  obtain ⟨p, e, m, ks, rfl⟩ := h
  exact ⟨p, e, m, ks.set k.val true, rfl⟩

theorem State.AtBoot.setKey {s : State} (h : s.AtBoot) (k : Key) (b : Bool) : (s.setKey k b).AtBoot := by
  obtain ⟨p, e, m, ks, rfl⟩ := h
  exact ⟨p, e, m, ks.set k.val b, rfl⟩

theorem State.AtBoot.acknowledge {s : State} (h : s.AtBoot) : s.acknowledge.AtBoot := by
  obtain ⟨p, e, m, ks, rfl⟩ := h
  exact ⟨p, e, m, ks, rfl⟩

theorem State.AtBoot.writeBytes {s : State} (h : s.AtBoot) (a : Nat) (us : List Byte) :
    (s.writeBytes a us).AtBoot := by
  obtain ⟨p, e, m, ks, rfl⟩ := h
  obtain ⟨m', hm⟩ := State.writeBytes_fields us { State.resetWith p e with mem := m, keys := ks } a
  exact ⟨p, e, m', ks, hm⟩

/-! ### Every action keeps the session's invariant -/

/-- An action that keeps memory, the parameters and the phase keeps the invariant. -/
theorem Session.Inv.of_sameMem {c : Session} {t : State} (h : c.Inv) (ht : t.Inv) (hm : t.mem = c.machine.mem)
    (hp : t.params = c.machine.params) (hb : c.machine.AtBoot → t.AtBoot) :
    ({ c with machine := t } : Session).Inv where
  machine := ht
  fresh hf := by
    obtain ⟨hboot, hmem⟩ := State.atBoot_and_mem_iff.2 (h.fresh hf)
    exact State.atBoot_and_mem_iff.1 ⟨hb hboot, hm.trans hmem⟩
  loaded hl := by
    obtain ⟨hboot, hlow⟩ := h.loaded hl
    refine ⟨State.atBoot_iff.1 (hb (State.atBoot_iff.2 hboot)), fun a ha => ?_⟩
    rw [State.readByte_congr hm hp, hlow a ha]
    exact State.readByte_congr (s := c.machine.resetNow) (t := t.resetNow) rfl hp.symm a

/-- A load into a fresh session writes nothing below 0x200 (R273). -/
theorem Session.Inv.load {c : Session} (h : c.Inv) (hf : c.phase = .fresh) {rom : List Byte}
    (ht : (c.machine.writeBytes Config.progBase rom).Inv) :
    ({ machine := c.machine.writeBytes Config.progBase rom, phase := .loaded } : Session).Inv where
  machine := ht
  fresh := Phase.noConfusion
  loaded _ := by
    obtain ⟨hboot, hmem⟩ := State.atBoot_and_mem_iff.2 (h.fresh hf)
    refine ⟨State.atBoot_iff.1 (hboot.writeBytes _ _), fun a ha => ?_⟩
    rw [State.readByte_writeBytes_outside _ _ _ _ (by simp only [Config.progBase]; omega)]
    exact State.readByte_congr hmem (by simp) a

theorem act_session_inv {a : Action} {c d : Session} (hc : c.Inv) (h : act a c = .next d) : d.Inv := by
  have hm := act_machine_inv hc.machine h
  obtain ⟨-, -, hp⟩ | ⟨-, rfl⟩ | ⟨k, -, -, rfl⟩ | ⟨k, -, -, rfl⟩ | ⟨-, -, rfl⟩ | ⟨-, rfl⟩ |
    ⟨rom, -, hf, -, rfl⟩ := act_cases h
  · exact ⟨hm, fun hf => Phase.noConfusion (hp.symm.trans hf), fun hl => Phase.noConfusion (hp.symm.trans hl)⟩
  · exact hc.of_sameMem hm rfl rfl State.AtBoot.tick
  · obtain ⟨v, ks, r, hk⟩ := State.pressKey_fields c.machine k
    exact hc.of_sameMem hm (by rw [hk]) (by rw [hk]) fun hb => hb.pressKey k
  · exact hc.of_sameMem hm rfl rfl fun hb => hb.setKey k false
  · exact hc.of_sameMem hm rfl rfl State.AtBoot.acknowledge
  · exact ⟨hm, fun _ => rfl, Phase.noConfusion⟩
  · exact hc.load hf hm

/-- The session after the first reset is as the reset left it. -/
theorem sessionStart_inv : Session.start.Inv := ⟨resetWith_inv _ _, fun _ => rfl, Phase.noConfusion⟩

/-- Settles O19: one action lemma for the machine, one for the session, and the induction over a run. -/
theorem reachableStatesMeetInvariant : Obligations.ReachableStatesMeetInvariant :=
  ⟨fun _ _ _ => act_machine_inv, fun _ _ _ => act_session_inv,
    fun _ _ => runActions_induct (fun _ _ _ => act_session_inv) sessionStart_inv⟩

end Sys2Proof.Machine
end

section
/-! PROOFS. What an instruction writes is a function of what it reads (spec 10_state.md R34), and no instruction reads
a dead stack entry (R25, R37). -/

namespace Sys2Proof.Machine

/-! ### Reads and writes of blocks -/

theorem State.readBytes_congr {s s' : State} (h : ∀ a, s'.readByte a = s.readByte a) (a n : Nat) :
    s'.readBytes a n = s.readBytes a n := by
  refine List.ext_getElem (by simp) fun k h1 h2 => ?_
  rw [State.readBytes_getElem, State.readBytes_getElem, h]

theorem State.getVs_congr {s s' : State} {x : Reg} (h : ∀ r ∈ blockRegs x, s'.getV r = s.getV r) :
    s'.getVs 0 (blockLength x) = s.getVs 0 (blockLength x) := by
  refine List.ext_getElem (by simp) fun k h1 h2 => ?_
  rw [State.getVs_getElem, State.getVs_getElem, h]
  rw [State.getVs_length, blockLength] at h2
  exact mem_blockRegs.2 ((Nat.mod_le _ _).trans (by omega))

theorem State.drawSprite_congr {s s' : State} {x y : Reg} (hx : s'.getV x = s.getV x) (hy : s'.getV y = s.getV y)
    (hi : s'.i = s.i) (hm : ∀ a, s'.readByte a = s.readByte a) (hfb : s'.fb = s.fb) (n : Nat) :
    s'.drawSprite x y n = s.drawSprite x y n := by
  rw [State.drawSprite, hx, hy, hi, State.readBytes_congr hm, hfb, State.drawSprite]

/-- Two block loads of the same bytes agree on the block. -/
theorem getV_setVs_congr {t t' : State} {us : List Byte} {x r : Reg} (hl : us.length = blockLength x)
    (hr : r ∈ blockRegs x) : (t'.setVs 0 us).getV r = (t.setVs 0 us).getV r := by
  have hx := x.isLt
  have hlt : r.val < us.length := by rw [hl]; exact Nat.lt_succ_of_le (mem_blockRegs.1 hr)
  have hle : 0 + us.length ≤ 16 := by rw [hl, blockLength]; omega
  rw [State.getV_setVs_inside us t' 0 r.val r hle hlt (by omega),
    State.getV_setVs_inside us t 0 r.val r hle hlt (by omega)]

/-- Two writes of the same block agree on its cells. -/
theorem readByte_writeBytes_congr {t t' : State} {us : List Byte} {a b : Nat} (ht : t.memWf = true)
    (ht' : t'.memWf = true) (hl : a + us.length ≤ 4096) (hb : a ≤ b ∧ b < a + us.length) :
    (t'.writeBytes a us).readByte b = (t.writeBytes a us).readByte b := by
  obtain ⟨k, rfl⟩ := Nat.exists_eq_add_of_le hb.1
  rw [State.readByte_writeBytes_inside us t a k hl (by omega) ht,
    State.readByte_writeBytes_inside us t' a k hl (by omega) ht']

/-! ### Two states that agree on what an instruction reads -/

/-- `s'` agrees with `s` on `pc`, the parameters and what R34 lists as read. -/
structure ReadsAgree (i : Instr) (s s' : State) : Prop where
  pc : s'.pc = s.pc
  params : s'.params = s.params
  components : ∀ c ∈ i.reads, c.same s s'
  regs : ∀ r ∈ i.regsRead s.params, s'.getV r = s.getV r

namespace ReadsAgree

variable {i : Instr} {s s' : State} (h : ReadsAgree i s s')
include h

/-- The checks read `sp`, `I` or a key code. -/
theorem errorOn : i.errorOn s' = i.errorOn s := by
  obtain ⟨-, -, hc, hr⟩ := h
  cases i
  case ret | call => rw [Instr.errorOn, Instr.errorOn, hc .sp (by simp [Instr.reads])]
  case drw | ldBcd | storeRegs | loadRegs =>
    simp only [Instr.errorOn, blockError, show s'.i = s.i from hc .i (by simp [Instr.reads])]
  case skp x | sknp x => simp only [Instr.errorOn, keyError, hr x (by simp [Instr.regsRead])]
  all_goals rfl

/-- The outcomes read the stack, V0, the registers compared or the keypad. -/
theorem outcome : i.outcome s' = i.outcome s := by
  obtain ⟨-, -, hc, hr⟩ := h
  cases i
  case ret =>
    simp only [Instr.outcome, show s'.stack = s.stack from hc .stack (by simp [Instr.reads]),
      show s'.sp = s.sp from hc .sp (by simp [Instr.reads])]
  case jpV0 => simp only [Instr.outcome, State.indexedTarget, hr 0 (by simp [Instr.regsRead])]
  case seImm x _ | sneImm x _ => simp only [Instr.outcome, hr x (by simp [Instr.regsRead])]
  case seReg x y | sneReg x y =>
    simp only [Instr.outcome, hr x (by simp [Instr.regsRead]), hr y (by simp [Instr.regsRead])]
  case skp x | sknp x =>
    simp only [Instr.outcome, hr x (by simp [Instr.regsRead]), State.keyDown,
      show s'.keys = s.keys from hc .keys (by simp [Instr.reads])]
  all_goals rfl

theorem shiftOperand {x y : Reg} (hi : i = .shrReg x y ∨ i = .shlReg x y) :
    s'.shiftOperand x y = s.shiftOperand x y := by
  obtain ⟨-, hp, -, hr⟩ := h
  unfold State.shiftOperand
  rw [hp]
  rcases hi with rfl | rfl <;> cases hq : s.params.shiftSource <;> simp_all [Instr.regsRead]

theorem drawSprite {x y : Reg} {n : Nat} (hi : i = .drw x y n) : s'.drawSprite x y n = s.drawSprite x y n := by
  obtain ⟨-, -, hc, hr⟩ := h
  subst hi
  exact State.drawSprite_congr (hr x (by simp [Instr.regsRead])) (hr y (by simp [Instr.regsRead]))
    (hc .i (by simp [Instr.reads])) (hc .mem (by simp [Instr.reads])) (hc .fb (by simp [Instr.reads])) n

/-- The written components other than registers and memory. -/
theorem completed_components :
    ∀ c ∈ i.writes s.params, c ≠ .v → c ≠ .mem → c.same (i.completed s) (i.completed s') := by
  have hout := h.outcome
  have hsprite := @h.drawSprite
  obtain ⟨hpc, hp, hc, hr⟩ := h
  cases i
  case drw => simp_all [Instr.writes, Component.same, Instr.completed, Instr.effect]
  case addI =>
    cases hq : s.params.indexOverflow <;>
      simp_all [Instr.reads, Instr.regsRead, Instr.writes, Component.same, Instr.completed, Instr.effect]
  all_goals simp_all [Instr.reads, Instr.regsRead, Instr.writes, Component.same, Instr.completed, Instr.effect]

/-- The written registers. -/
theorem completed_regs : ∀ r ∈ i.regsWritten s.params, (i.completed s').getV r = (i.completed s).getV r := by
  have hshift := @h.shiftOperand
  have hsprite := @h.drawSprite
  obtain ⟨hpc, hp, hc, hr⟩ := h
  cases i
  case shrReg | shlReg => simp_all [Instr.regsWritten, Instr.completed, Instr.effect, State.getV_setV]
  case drw => simp_all [Instr.regsWritten, Instr.completed, Instr.effect]
  case addI =>
    cases hq : s.params.indexOverflow <;>
      simp_all [Instr.reads, Instr.regsRead, Instr.regsWritten, Component.same, Instr.completed, Instr.effect]
  case loadRegs x =>
    have hi : s'.i = s.i := hc .i (by simp [Instr.reads])
    have hm : ∀ a, s'.readByte a = s.readByte a := hc .mem (by simp [Instr.reads])
    intro r hmem
    simp only [Instr.completed, Instr.effect, State.getV_finish, State.getV_setI, hi, State.readBytes_congr hm]
    exact getV_setVs_congr (State.readBytes_length s _ _) hmem
  all_goals
    simp_all [Instr.reads, Instr.regsRead, Instr.regsWritten, Component.same, Instr.completed, Instr.effect,
      State.getV_setV]

/-- The stored cells. -/
theorem completed_cells (hs : s.memWf = true) (hs' : s'.memWf = true) (he : i.errorOn s = none) (b : Nat)
    (hb : s.i.toNat ≤ b ∧ b < s.i.toNat + i.cellsStored) :
    (i.completed s').readByte b = (i.completed s).readByte b := by
  obtain ⟨-, -, hc, hr⟩ := h
  simp only [Instr.completed, State.readByte_finish]
  cases i
  case ldBcd x =>
    have hi : s'.i = s.i := hc .i (by simp [Instr.reads])
    simp only [Instr.effect, hi, hr x (by simp [Instr.regsRead])]
    exact readByte_writeBytes_congr hs hs' (block_le_of_noError he (Nat.succ_pos 2)) hb
  case storeRegs x =>
    have hi : s'.i = s.i := hc .i (by simp [Instr.reads])
    simp only [Instr.effect, hi, State.readByte_setI, State.getVs_congr hr]
    exact readByte_writeBytes_congr hs hs'
      (by rw [State.getVs_length]; exact block_le_of_noError he (Nat.succ_pos _))
      (by rwa [State.getVs_length])
  all_goals exact absurd (hb.2.trans_eq (Nat.add_zero _)) (Nat.not_lt.2 hb.1)

end ReadsAgree

/-- Settles O22: both states pass the instruction's check, and what it writes is computed from what it reads. -/
theorem instructionsReadOnlyWhatIsListed : Obligations.InstructionsReadOnlyWhatIsListed := by
  intro i s s' t t' hs hs' hpc hp hc hr he ht ht'
  have h : ReadsAgree i s s' := ⟨hpc, hp, hc, hr⟩
  cases (exec_completes he).symm.trans ht
  cases (exec_completes (h.errorOn.trans he)).symm.trans ht'
  exact ⟨h.completed_components, h.completed_regs, fun b h1 h2 => h.completed_cells hs hs' he b ⟨h1, h2⟩⟩

/-! ### Dead stack entries -/

/-- The state with other stack entries. -/
def State.withEntries (s : State) (S : Vector Word 16) : State := { s with stack := S }

section
variable (s : State) (S : Vector Word 16)

theorem State.readBytes_withEntries (a n : Nat) : (s.withEntries S).readBytes a n = s.readBytes a n :=
  State.readBytes_congr (s := s) (s' := s.withEntries S) (fun _ => rfl) a n

theorem State.getVs_withEntries (x : Reg) :
    (s.withEntries S).getVs 0 (blockLength x) = s.getVs 0 (blockLength x) :=
  State.getVs_congr fun _ _ => rfl

theorem State.writeBytes_withEntries (a : Nat) (us : List Byte) :
    (s.withEntries S).writeBytes a us = (s.writeBytes a us).withEntries S := by
  induction us generalizing s a with
  | nil => rfl
  | cons u us ih => exact ih (s.writeByte a u) (a + 1)

theorem State.setVs_withEntries (r : Nat) (us : List Byte) :
    (s.withEntries S).setVs r us = (s.setVs r us).withEntries S := by
  induction us generalizing s r with
  | nil => rfl
  | cons u us ih => exact ih (s.setV (Fin.ofNat 16 r) u) (r + 1)

/-- The entries of the stack play no part in a check. -/
theorem errorOn_withEntries (i : Instr) : i.errorOn (s.withEntries S) = i.errorOn s := by
  cases i <;> rfl

/-- An instruction other than `00EE` and `2nnn` does the same with other entries, and keeps them. -/
theorem completed_withEntries {i : Instr} (hret : i ≠ .ret) (hcall : ∀ nnn, i ≠ .call nnn) :
    i.completed (s.withEntries S) = (i.completed s).withEntries S := by
  cases i
  case ret => exact absurd rfl hret
  case call nnn => exact absurd rfl (hcall nnn)
  case drw x y n =>
    have hd : (s.withEntries S).drawSprite x y n = s.drawSprite x y n :=
      State.drawSprite_congr (s := s) (s' := s.withEntries S) rfl rfl rfl (fun _ => rfl) rfl n
    simp only [Instr.completed, Instr.effect, hd]
    rfl
  case addI =>
    simp only [Instr.completed, Instr.effect, State.withEntries]
    cases s.params.indexOverflow <;> rfl
  case ldBcd =>
    simp only [Instr.completed, Instr.effect, State.writeBytes_withEntries]
    rfl
  case storeRegs =>
    simp only [Instr.completed, Instr.effect, State.getVs_withEntries, State.writeBytes_withEntries]
    rfl
  case loadRegs =>
    simp only [Instr.completed, Instr.effect, State.readBytes_withEntries, State.setVs_withEntries]
    rfl
  all_goals rfl

end

theorem changesOnly_withEntries (s : State) (S : Vector Word 16) : ChangesOnly [.stack] s (s.withEntries S) := by
  intro c hc
  cases c
  case mem | v => exact fun _ => rfl
  case stack => exact absurd (List.mem_singleton_self _) hc
  all_goals rfl

/-- A return reads the topmost live entry alone. -/
theorem completed_ret_withEntries {s : State} {S : Vector Word 16}
    (hS : S[s.sp.val - 1] = s.stack[s.sp.val - 1]) :
    Instr.ret.completed (s.withEntries S) = (Instr.ret.completed s).withEntries S := by
  have ho : Instr.ret.outcome (s.withEntries S) = Instr.ret.outcome s := congrArg PcOutcome.jump hS
  rw [Instr.completed, ho]
  rfl

/-- With other entries from `sp` on, an instruction leaves the same state but for entries from the new `sp` on. -/
theorem exec_withEntries {i : Instr} {s t : State} {S : Vector Word 16}
    (hS : ∀ j : Fin 16, j.val < s.sp.val → S[j.val] = s.stack[j.val]) (h : exec i s = .next t) :
    ∃ S', exec i (s.withEntries S) = .next (t.withEntries S') ∧
      ∀ j : Fin 16, j.val < t.sp.val → S'[j.val] = t.stack[j.val] := by
  obtain ⟨e, he, rfl⟩ | ⟨he, rfl⟩ := exec_cases h
  · exact ⟨S, exec_of_error i _ e ((errorOn_withEntries s S i).trans he), hS⟩
  · rw [exec_completes ((errorOn_withEntries s S i).trans he)]
    by_cases hw : .stack ∈ i.writes s.params ∨ .sp ∈ i.writes s.params
    · obtain rfl | ⟨nnn, rfl⟩ := ret_or_call_of_mem_writes hw
      · have hsp := sp_pos_of_noError he
        have htop := hS ⟨s.sp.val - 1, by omega⟩ (Nat.sub_lt hsp one_pos)
        refine ⟨S, congrArg _ (completed_ret_withEntries htop), fun j hj => hS j ?_⟩
        change j.val < (s.sp.val - 1) % 17 at hj
        omega
      · refine ⟨S.setIfInBounds s.sp.val (s.pc + 2), rfl, fun j hj => ?_⟩
        change j.val < (s.sp.val + 1) % 17 at hj
        change (S.setIfInBounds s.sp.val (s.pc + 2))[j.val] = (s.stack.setIfInBounds s.sp.val (s.pc + 2))[j.val]
        rw [Vector.getElem_setIfInBounds, Vector.getElem_setIfInBounds]
        split
        · rfl
        · exact hS j (by omega)
    · have hf := (completed_frame i s).components
      have hsp : (i.completed s).sp = s.sp := hf .sp fun h => hw (.inr h)
      have hstack : (i.completed s).stack = s.stack := hf .stack fun h => hw (.inl h)
      refine ⟨S, congrArg _ (completed_withEntries s S ?_ ?_), fun j hj => ?_⟩
      · rintro rfl; exact hw (.inr (by simp [Instr.writes]))
      · rintro nnn rfl; exact hw (.inl (by simp [Instr.writes]))
      · simp only [hstack]
        exact hS j (hsp ▸ hj)

/-- Settles O25: an entry at `sp` or above is none of the live ones. -/
theorem deadStackEntriesAreUnobservable : Obligations.DeadStackEntriesAreUnobservable := by
  intro i s t k a hk h
  have hS (j : Fin 16) (hj : j.val < s.sp.val) : (s.stack.set k.val a)[j.val] = s.stack[j.val] :=
    Vector.getElem_set_ne _ _ (by omega)
  obtain ⟨S', hx, hlive⟩ := exec_withEntries (S := s.stack.set k.val a) hS h
  exact ⟨t.withEntries S', hx, changesOnly_withEntries t S', hlive⟩

end Sys2Proof.Machine
end

section
/-! PROOFS. Sums and differences with their flag (spec 42_alu.md R147, R148, R150), the sound output (R38), reset
(R39) and the first instruction after boot (R40). -/

namespace Sys2Proof.Machine

/-! ### Words of family 0x8 -/

theorem xOf_eq_bitsX (w : Word) : xOf w = bitsX w := by
  apply Fin.ext
  simp only [xOf, bitsX, field, Fin.val_ofNat, BitVec.val_toFin, BitVec.extractLsb'_toNat,
    Nat.shiftRight_eq_div_pow]
  norm_num

theorem yOf_eq_bitsY (w : Word) : yOf w = bitsY w := by
  apply Fin.ext
  simp only [yOf, bitsY, field, Fin.val_ofNat, BitVec.val_toFin, BitVec.extractLsb'_toNat,
    Nat.shiftRight_eq_div_pow]
  norm_num

/-- A row of family 0x8 is decoded by its low nibble (R75). -/
theorem decodesRow_alu {n : Nat} {f : Reg → Reg → Instr} (hn : n < 16)
    (hf : ∀ w, nOf w = n → decodeAlu w = some (f (xOf w) (yOf w))) :
    DecodesRow 0xF00F (BitVec.ofNat 16 (8 * 4096 + n)) fun w => f (bitsX w) (bitsY w) := by
  intro w hw
  obtain ⟨hop, hlow⟩ := (and_F00F_iff w 8 n (by decide) hn).1 hw
  change decode w = some (f (bitsX w) (bitsY w))
  rw [← xOf_eq_bitsX, ← yOf_eq_bitsY, decode, opOf, hop]
  exact hf w hlow

/-! ### Results with a flag -/

/-- The instructions that end with `putVF` complete with the result and the flag (R22). -/
theorem completesWithFlag_of_putVF {i : Instr} {s : State} {x : Reg} {u : Byte} {b : Bool} {result : Nat}
    {flag : Prop} (h : exec i s = s.putVF x u b) (hu : u.toNat = result) (hb : b = true ↔ flag) :
    CompletesWithFlag i s x result flag := by
  have hf : Frame [.v, .pc] [x, 15] 0 0 s (((s.setV x u).setV 15 (flagByte b)).finish .next) :=
    ((Frame.refl.setV (by simp) (by simp)).setV (by simp) (by simp)).finish (by simp)
  refine ⟨_, h, fun hx => ?_, fun hflag => ?_, fun hflag => ?_, hf.regs, rfl, hf.components⟩
  · simp [State.getV_setV, hx, hu]
  · simp [hb.2 hflag]
  · simp [Bool.eq_false_iff.2 fun h => hflag (hb.1 h)]

theorem sumByte_toNat (a b : Byte) : (sumByte a b).toNat = (a.toNat + b.toNat) % 256 := by
  simp [sumByte]

theorem diffByte_toNat (a b : Byte) : (diffByte a b).toNat = (((a.toNat : Int) - b.toNat) % 256).toNat := by
  have := a.isLt
  have := b.isLt
  simp only [diffByte, BitVec.toNat_ofNat]
  omega

/-- Settles O33: the three rows of family 0x8, and `putVF` with each result and flag. -/
theorem sumsAndDifferencesSetVF : Obligations.SumsAndDifferencesSetVF := by
  refine ⟨⟨?_, ?_, ?_⟩, fun x y s => ⟨?_, ?_, ?_⟩⟩
  · exact decodesRow_alu (n := 4) (f := .addReg) (by decide) fun w hw => by simp only [decodeAlu, hw]
  · exact decodesRow_alu (n := 5) (f := .subReg) (by decide) fun w hw => by simp only [decodeAlu, hw]
  · exact decodesRow_alu (n := 7) (f := .subnReg) (by decide) fun w hw => by simp only [decodeAlu, hw]
  · exact completesWithFlag_of_putVF rfl (sumByte_toNat _ _) decide_eq_true_iff
  · exact completesWithFlag_of_putVF rfl (diffByte_toNat _ _) decide_eq_true_iff
  · exact completesWithFlag_of_putVF rfl (diffByte_toNat _ _) decide_eq_true_iff

/-! ### The sound output -/

theorem State.soundActive_iff (s : State) : s.soundActive = true ↔ s.st ≠ 0 := by
  rw [State.soundActive, decide_eq_true_iff, Nat.pos_iff_ne_zero, ne_eq, ne_eq, ← BitVec.toNat_inj]
  rfl

/-- Settles O52: the output is a function of `ST`, which `Fx18` sets and a tick counts down. -/
theorem soundFollowsSoundTimer : Obligations.SoundFollowsSoundTimer := by
  refine ⟨State.soundActive_iff, fun x s t h => ?_, fun s => ?_⟩
  · cases h
    exact State.soundActive_iff _
  · rw [State.soundActive, decide_eq_true_iff, State.tick_st, countDown_toNat]
    omega

/-! ### Reset -/

theorem readByte_resetWith (p : Params) (e : Entropy) (a : Nat) :
    (State.resetWith p e).readByte a = unlistedByte p.font a := rfl

/-- Settles O56, component by component. -/
theorem resetRestoresEveryComponent : Obligations.ResetRestoresEveryComponent := by
  intro s p
  refine ⟨State.resetWith s.params s.entropy, rfl, rfl, fun a ha => ?_, fun a ha => ?_, fun r => ?_, rfl, rfl,
    fun k => ?_, rfl, rfl, fun px py => ?_, fun k => ?_, rfl, rfl, rfl, rfl⟩
  · rw [readByte_resetWith, unlistedByte, dif_pos ha]
  · rw [readByte_resetWith, unlistedByte, dif_neg (Nat.not_lt.2 ha)]
  · simp [State.getV]
  · simp
  · simp
  · simp

/-! ### Boot -/

/-- The word at `pc` after a block write from `pc` on is the block's first two bytes (R55, R60). -/
theorem word_writeBytes {s : State} {hi lo : Byte} {rest : List Byte} (hwf : s.memWf = true)
    (hle : s.pc.toNat + (hi :: lo :: rest).length ≤ 4096) :
    (s.writeBytes s.pc.toNat (hi :: lo :: rest)).word = hi.setWidth 16 <<< 8 ||| lo.setWidth 16 := by
  have h0 := State.readByte_writeBytes_inside (hi :: lo :: rest) s _ 0 hle (by simp) hwf
  have h1 := State.readByte_writeBytes_inside (hi :: lo :: rest) s _ 1 hle (by simp) hwf
  rw [Nat.add_zero] at h0
  rw [State.word, State.writeBytes_pc, h1, h0]
  rfl

/-- Settles O60: the load leaves `pc` and `run` of the reset, and the word there is the ROM's first. -/
theorem bootRunsTheFirstRomWord : Obligations.BootRunsTheFirstRomWord := by
  refine ⟨rfl, fun hi lo rest d h => ?_⟩
  obtain ⟨hload, -⟩ := inPhase_eq_next.1 h
  obtain ⟨hlen, hd⟩ := State.loadRom_eq_next.1 hload
  have hpc : d.machine.pc = 0x200 := by rw [hd, State.writeBytes_pc]; rfl
  have hrun : d.machine.run = .running := by rw [hd, State.writeBytes_run]; rfl
  have hword : d.machine.word = hi.setWidth 16 <<< 8 ||| lo.setWidth 16 := by
    rw [hd]
    exact word_writeBytes (s := State.reset) (State.memWf_resetWith _ _) (Nat.add_le_add_left hlen 0x200)
  exact ⟨hpc, hword, fun i hi => step_eq_exec hrun (by rw [hpc]; decide) (hword ▸ hi)⟩

end Sys2Proof.Machine
end

section
/-! PROOFS. Memory (spec 20_memory.md): the fetch is big-endian (R55), a fetch reads what a store has written (R63),
and a block that passes 4095 halts (R53). -/

namespace Sys2Proof.Machine

/-! ### A fetch, and a fetch of what was stored -/

/-- Settles O9: the word of a claim is the word that `fetch` joins. -/
theorem fetchIsBigEndian : Obligations.FetchIsBigEndian := fun _ => State.fetch_eq_word

/-- A completed `Fx55` leaves `V[r]` in cell `I + r` (R175). -/
theorem readByte_completed_storeRegs {s : State} {x r : Reg} (he : Instr.errorOn s (.storeRegs x) = none)
    (hwf : s.memWf = true) (hr : r.val ≤ x.val) :
    (Instr.completed (.storeRegs x) s).readByte (s.i.toNat + r.val) = s.getV r := by
  have hle : s.i.toNat + (s.getVs 0 (blockLength x)).length ≤ 4096 := by
    rw [State.getVs_length]
    exact block_le_of_noError he (Nat.succ_pos _)
  have hlt : r.val < (s.getVs 0 (blockLength x)).length := by
    rw [State.getVs_length]
    exact Nat.lt_succ_of_le hr
  rw [Instr.completed, Instr.effect, State.readByte_finish, State.readByte_setI,
    State.readByte_writeBytes_inside _ _ _ _ hle hlt hwf, State.getVs_getElem, Nat.zero_add,
    Fin.ofNat_val_eq_self]

/-- Settles O12: the store completed, and both cells of the fetched word lie in its block. -/
theorem storedCodeIsFetched : Obligations.StoredCodeIsFetched := by
  intro x hi lo s t hwf hexec hrun hpc hlo hx
  obtain ⟨e, -, rfl⟩ | ⟨he, rfl⟩ := exec_cases hexec
  · exact absurd ⟨e, rfl⟩ hrun
  · have hpc' : s.i.toNat + hi.val + 1 = s.i.toNat + lo.val := by omega
    rw [State.word, hpc, hpc', readByte_completed_storeRegs he hwf (by omega),
      readByte_completed_storeRegs he hwf hx]

/-! ### Blocks that pass 4095 -/

/-- A block that passes 4095 has the error of R177. -/
theorem blockError_of_past {s : State} {n : Nat} (hn : 0 < n) (h : 4095 < s.i.toNat + n - 1) :
    blockError s n = some (.addressOutOfRange (max s.i.toNat 4096)) := if_pos ⟨hn, h⟩

/-- Settles O16: each of the four instructions checks its block first, and the check fails. -/
theorem blockPastMemoryHalts : Obligations.BlockPastMemoryHalts := by
  refine fun s => ⟨fun x h => ?_, fun x h => ⟨?_, ?_⟩, fun x y n hn h => ?_⟩
  · exact exec_of_error _ _ _ (blockError_of_past (Nat.succ_pos 2) h)
  · exact exec_of_error _ _ _ (blockError_of_past (Nat.succ_pos x.val) h)
  · exact exec_of_error _ _ _ (blockError_of_past (Nat.succ_pos x.val) h)
  · exact exec_of_error _ _ _ (blockError_of_past hn h)

end Sys2Proof.Machine
end

section
/-! PROOFS. Encoding (spec 30_encoding.md): the fields of packed words and the word of given fields (R71, R72), the
round trip in both directions, the opcode table (R75), the illegal words (R76) and the bytes of a word (R70). -/

namespace Sys2Proof

/-! ### Fields of packed words -/

section
variable {op n nn : Nat} {x y : Reg} {nnn : Addr}

@[simp] theorem opOf_packNNN (h : op < 16) : opOf (packNNN op nnn) = op := by
  have := nnn.isLt
  simp only [opOf, field, packNNN_toNat op nnn h]
  norm_num
  omega

@[simp] theorem nnnOf_packNNN (h : op < 16) : nnnOf (packNNN op nnn) = nnn := by
  have := nnn.isLt
  apply BitVec.eq_of_toNat_eq
  simp only [nnnOf, field, packNNN_toNat op nnn h, BitVec.toNat_ofNat]
  norm_num
  omega

@[simp] theorem opOf_packXNN (h : op < 16) (hn : nn < 256) : opOf (packXNN op x nn) = op := by
  simp only [opOf, field, packXNN_toNat op x nn h hn]
  norm_num
  omega

@[simp] theorem xOf_packXNN (h : op < 16) (hn : nn < 256) : xOf (packXNN op x nn) = x := by
  apply Fin.ext
  simp only [xOf, field, packXNN_toNat op x nn h hn, Fin.val_ofNat]
  norm_num
  omega

@[simp] theorem field_7_0_packXNN (h : op < 16) (hn : nn < 256) : field (packXNN op x nn) 7 0 = nn := by
  simp only [field, packXNN_toNat op x nn h hn]
  norm_num
  omega

@[simp] theorem nnOf_packXNN {b : Byte} (h : op < 16) : nnOf (packXNN op x b.toNat) = b := by
  rw [nnOf, field_7_0_packXNN h b.isLt, BitVec.ofNat_toNat, BitVec.setWidth_eq]

@[simp] theorem opOf_packXYN (h : op < 16) (hn : n < 16) : opOf (packXYN op x y n) = op := by
  simp only [opOf, field, packXYN_toNat op x y n h hn]
  norm_num
  omega

@[simp] theorem xOf_packXYN (h : op < 16) (hn : n < 16) : xOf (packXYN op x y n) = x := by
  apply Fin.ext
  simp only [xOf, field, packXYN_toNat op x y n h hn, Fin.val_ofNat]
  norm_num
  omega

@[simp] theorem yOf_packXYN (h : op < 16) (hn : n < 16) : yOf (packXYN op x y n) = y := by
  apply Fin.ext
  simp only [yOf, field, packXYN_toNat op x y n h hn, Fin.val_ofNat]
  norm_num
  omega

@[simp] theorem nOf_packXYN (h : op < 16) (hn : n < 16) : nOf (packXYN op x y n) = n := by
  simp only [nOf, field, packXYN_toNat op x y n h hn]
  norm_num
  omega

/-! ### The word of given fields -/

variable {w : Word}

theorem toNat_eq_op_low (w : Word) : w.toNat = opOf w * 4096 + field w 11 0 := by
  have := w.isLt
  simp only [opOf, field]
  norm_num
  omega

theorem packNNN_nnnOf (h : opOf w = op) : packNNN op (nnnOf w) = w := by
  apply BitVec.eq_of_toNat_eq
  rw [packNNN_toNat _ _ (h ▸ field_op_lt w), toNat_eq_op_low w, h, nnnOf, BitVec.toNat_ofNat,
    Nat.mod_eq_of_lt (field_nnn_lt w)]

theorem xOf_val (w : Word) : (xOf w).val = field w 11 8 := Nat.mod_eq_of_lt (field_lt w 11 8)

theorem yOf_val (w : Word) : (yOf w).val = field w 7 4 := Nat.mod_eq_of_lt (field_lt w 7 4)

theorem nnOf_toNat (w : Word) : (nnOf w).toNat = field w 7 0 := Nat.mod_eq_of_lt (field_nn_lt w)

theorem nnnOf_toNat (w : Word) : (nnnOf w).toNat = field w 11 0 := Nat.mod_eq_of_lt (field_nnn_lt w)

theorem packXNN_xOf (h : opOf w = op) (hnn : field w 7 0 = nn) : packXNN op (xOf w) nn = w := by
  apply BitVec.eq_of_toNat_eq
  rw [packXNN_toNat _ _ _ (h ▸ field_op_lt w) (hnn ▸ field_nn_lt w), toNat_eq_op_low w, field_11_0, h, hnn,
    xOf_val, Nat.add_assoc]

theorem packXNN_xOf_nnOf (h : opOf w = op) : packXNN op (xOf w) (nnOf w).toNat = w :=
  packXNN_xOf h (nnOf_toNat w).symm

theorem packXYN_xOf_yOf (h : opOf w = op) (hn : nOf w = n) : packXYN op (xOf w) (yOf w) n = w := by
  apply BitVec.eq_of_toNat_eq
  rw [packXYN_toNat _ _ _ _ (h ▸ field_op_lt w) (hn ▸ field_n_lt w), toNat_eq_op_low w, field_11_0, field_7_0,
    h, xOf_val, yOf_val, ← hn, nOf]
  omega

end

/-! ### Decoding what was encoded -/

/-- Settles O1, by the formats of R72: the decoder reads each field that the encoder packed. -/
theorem decodeOfEncodeIsIdentity : Obligations.DecodeOfEncodeIsIdentity := by
  intro i hwf
  cases i
  case cls | ret => rfl
  case jp | call | ldI | jpV0 => simp [encode, decode]
  case seImm x nn | sneImm x nn | ldImm x nn | addImm x nn | rnd x nn => simp [encode, decode, nn.isLt]
  case seReg | sneReg => simp [encode, decode]
  case ldReg | orReg | andReg | xorReg | addReg | subReg | shrReg | subnReg | shlReg =>
    simp [encode, decode, decodeAlu]
  case drw x y n =>
    have hn : n < 16 := Nat.lt_succ_of_le (of_decide_eq_true hwf)
    simp [encode, decode, hn]
  case skp | sknp => simp [encode, decode, decodeKey]
  case ldVxDt | ldVxKey | ldDtVx | ldStVx | addI | ldFont | ldBcd | storeRegs | loadRegs =>
    simp [encode, decode, decodeMisc]

/-! ### Encoding what was decoded -/

/-- `i` is well-formed and its word is `w`. -/
def Instr.Spells (i : Instr) (w : Word) : Prop := i.WellFormed ∧ encode i = w

section
variable {w : Word} {i : Instr}

theorem spells_of_decodeFixed (hop : opOf w = 0) (h : decodeFixed w = some i) : i.Spells w := by
  have hw := toNat_eq_op_low w
  unfold decodeFixed at h
  split_ifs at h with hlow hlow <;> cases h <;> rw [hop, hlow] at hw
  · exact ⟨rfl, BitVec.eq_of_toNat_eq hw.symm⟩
  · exact ⟨rfl, BitVec.eq_of_toNat_eq hw.symm⟩

theorem spells_of_decodeAlu (hop : opOf w = 8) (h : decodeAlu w = some i) : i.Spells w := by
  unfold decodeAlu at h
  split at h <;> cases h
  all_goals exact ⟨rfl, packXYN_xOf_yOf hop ‹_›⟩

theorem spells_of_decodeKey (hop : opOf w = 14) (h : decodeKey w = some i) : i.Spells w := by
  unfold decodeKey at h
  split_ifs at h <;> cases h
  all_goals exact ⟨rfl, packXNN_xOf hop ‹_›⟩

theorem spells_of_decodeMisc (hop : opOf w = 15) (h : decodeMisc w = some i) : i.Spells w := by
  unfold decodeMisc at h
  split_ifs at h <;> cases h
  all_goals exact ⟨rfl, packXNN_xOf hop ‹_›⟩

/-- A word that decodes is the word of a well-formed instruction, by the families of R75: arm `h_k` of the
split is family `k - 1`. -/
theorem spells_of_decode (h : decode w = some i) : i.Spells w := by
  unfold decode at h
  split at h
  case h_1 hop => exact spells_of_decodeFixed hop h
  case h_9 hop => exact spells_of_decodeAlu hop h
  case h_15 hop => exact spells_of_decodeKey hop h
  case h_16 hop => exact spells_of_decodeMisc hop h
  case h_2 hop | h_3 hop | h_11 hop | h_12 hop => cases h; exact ⟨rfl, packNNN_nnnOf hop⟩
  case h_4 hop | h_5 hop | h_7 hop | h_8 hop | h_13 hop => cases h; exact ⟨rfl, packXNN_xOf_nnOf hop⟩
  case h_6 hop | h_10 hop => split_ifs at h with hn; cases h; exact ⟨rfl, packXYN_xOf_yOf hop hn⟩
  case h_14 hop =>
    cases h
    exact ⟨decide_eq_true (Nat.le_of_lt_succ (field_n_lt w)), packXYN_xOf_yOf hop rfl⟩
  case h_17 => cases h

end

/-- Settles O2, family by family: an instruction is decoded from its own fields. -/
theorem encodeOfDecodeIsIdentity : Obligations.EncodeOfDecodeIsIdentity := fun _ _ => spells_of_decode

/-! ### The opcode table -/

/-- The instruction of the row of `i` whose operands are the fields of `w`. -/
def Instr.withOperands (w : Word) : Instr → Instr
  | .cls => .cls
  | .ret => .ret
  | .jp _ => .jp (nnnOf w)
  | .call _ => .call (nnnOf w)
  | .seImm _ _ => .seImm (xOf w) (nnOf w)
  | .sneImm _ _ => .sneImm (xOf w) (nnOf w)
  | .seReg _ _ => .seReg (xOf w) (yOf w)
  | .ldImm _ _ => .ldImm (xOf w) (nnOf w)
  | .addImm _ _ => .addImm (xOf w) (nnOf w)
  | .ldReg _ _ => .ldReg (xOf w) (yOf w)
  | .orReg _ _ => .orReg (xOf w) (yOf w)
  | .andReg _ _ => .andReg (xOf w) (yOf w)
  | .xorReg _ _ => .xorReg (xOf w) (yOf w)
  | .addReg _ _ => .addReg (xOf w) (yOf w)
  | .subReg _ _ => .subReg (xOf w) (yOf w)
  | .shrReg _ _ => .shrReg (xOf w) (yOf w)
  | .subnReg _ _ => .subnReg (xOf w) (yOf w)
  | .shlReg _ _ => .shlReg (xOf w) (yOf w)
  | .sneReg _ _ => .sneReg (xOf w) (yOf w)
  | .ldI _ => .ldI (nnnOf w)
  | .jpV0 _ => .jpV0 (nnnOf w)
  | .rnd _ _ => .rnd (xOf w) (nnOf w)
  | .drw _ _ _ => .drw (xOf w) (yOf w) (nOf w)
  | .skp _ => .skp (xOf w)
  | .sknp _ => .sknp (xOf w)
  | .ldVxDt _ => .ldVxDt (xOf w)
  | .ldVxKey _ => .ldVxKey (xOf w)
  | .ldDtVx _ => .ldDtVx (xOf w)
  | .ldStVx _ => .ldStVx (xOf w)
  | .addI _ => .addI (xOf w)
  | .ldFont _ => .ldFont (xOf w)
  | .ldBcd _ => .ldBcd (xOf w)
  | .storeRegs _ => .storeRegs (xOf w)
  | .loadRegs _ => .loadRegs (xOf w)

section
variable {w : Word} {i : Instr}

theorem rowOf_withOperands (w : Word) (i : Instr) : rowOf (i.withOperands w) = rowOf i := by
  cases i <;> rfl

theorem wellFormed_withOperands (w : Word) (i : Instr) : (i.withOperands w).WellFormed := by
  cases i
  case drw => exact decide_eq_true (Nat.le_of_lt_succ (field_n_lt w))
  all_goals rfl

theorem packXYN_of_and_F00F {op n : Nat} (hop : op < 16) (hn : n < 16)
    (h : w &&& 0xF00F = BitVec.ofNat 16 (op * 4096 + n)) : packXYN op (xOf w) (yOf w) n = w :=
  have ⟨h1, h2⟩ := (and_F00F_iff w op n hop hn).1 h
  packXYN_xOf_yOf h1 h2

theorem packXNN_of_and_F0FF {op nn : Nat} (hop : op < 16) (hnn : nn < 256)
    (h : w &&& 0xF0FF = BitVec.ofNat 16 (op * 4096 + nn)) : packXNN op (xOf w) nn = w :=
  have ⟨h1, h2⟩ := (and_F0FF_iff w op nn hop hnn).1 h
  packXNN_xOf h1 h2

/-- A word of the row of `i` is the word of the instruction with its operands, by the masks of the table. -/
theorem encode_withOperands (h : w &&& (rowOf i).mask = (rowOf i).value) : encode (i.withOperands w) = w := by
  cases i
  case cls | ret => exact h.symm.trans (BitVec.and_allOnes (x := w))
  case jp | call | ldI | jpV0 => exact packNNN_nnnOf ((and_F000_iff w _ (by decide)).1 h)
  case seImm | sneImm | ldImm | addImm | rnd => exact packXNN_xOf_nnOf ((and_F000_iff w _ (by decide)).1 h)
  case drw => exact packXYN_xOf_yOf ((and_F000_iff w 13 (by decide)).1 h) rfl
  case seReg | sneReg | ldReg | orReg | andReg | xorReg | addReg | subReg | shrReg | subnReg | shlReg =>
    exact packXYN_of_and_F00F (by decide) (by decide) h
  case skp | sknp | ldVxDt | ldVxKey | ldDtVx | ldStVx | addI | ldFont | ldBcd | storeRegs | loadRegs =>
    exact packXNN_of_and_F0FF (by decide) (by decide) h

/-- A word of the row of `i` decodes to an instruction of that row. -/
theorem decode_of_row (h : w &&& (rowOf i).mask = (rowOf i).value) : decode w = some (i.withOperands w) := by
  have hdec := decodeOfEncodeIsIdentity _ (wellFormed_withOperands w i)
  rwa [encode_withOperands h] at hdec

/-- The word of a well-formed instruction is a word of its row. -/
theorem encodedRow (i : Instr) : Laws.EncodedRow.Statement i := by
  cases i
  case cls => exact Laws.EncodedRow.cls
  case ret => exact Laws.EncodedRow.ret
  case jp nnn | call nnn | ldI nnn | jpV0 nnn => exact fun _ => Laws.packNNN_row _ nnn (by decide)
  case seImm x nn | sneImm x nn | ldImm x nn | addImm x nn | rnd x nn =>
    exact fun _ => Laws.packXNN_row _ x nn (by decide)
  case seReg x y | sneReg x y | ldReg x y | orReg x y | andReg x y | xorReg x y | addReg x y | subReg x y |
      shrReg x y | subnReg x y | shlReg x y =>
    exact fun _ => Laws.packXYN_sub_row _ x y _ (by decide) (by decide)
  case drw x y n => exact Laws.EncodedRow.drw x y n
  case skp x | sknp x | ldVxDt x | ldVxKey x | ldDtVx x | ldStVx x | addI x | ldFont x | ldBcd x |
      storeRegs x | loadRegs x =>
    exact fun _ => Laws.packXNN_sub_row _ x _ (by decide) (by decide)

/-- A word that decodes is a word of the row of its instruction. -/
theorem row_of_decode (h : decode w = some i) : w &&& (rowOf i).mask = (rowOf i).value := by
  obtain ⟨hwf, rfl⟩ := spells_of_decode h
  exact encodedRow i hwf

theorem rowOf_mem_opcodeTable (i : Instr) : rowOf i ∈ opcodeTable := by
  cases i <;> simp [opcodeTable, rowSamples, rowOf]

theorem decode_eq_none_iff_forall_row (w : Word) :
    decode w = none ↔ ∀ row ∈ opcodeTable, w &&& row.mask ≠ row.value := by
  constructor
  · intro hnone row hrow hw
    obtain ⟨i, -, rfl⟩ := List.mem_map.1 hrow
    exact absurd (hnone.symm.trans (decode_of_row hw)) (by simp)
  · intro hrows
    by_contra hsome
    obtain ⟨i, hi⟩ := Option.ne_none_iff_exists'.1 hsome
    exact hrows _ (rowOf_mem_opcodeTable i) (row_of_decode hi)

end

/-- Settles O3: a word of a row decodes to an instruction of that row, and an instruction is in one row. -/
theorem decodeFollowsOpcodeTable : Obligations.DecodeFollowsOpcodeTable := by
  refine ⟨rfl, fun w row hrow => ⟨fun hw => ?_, ?_⟩, fun w row hrow row' hrow' hw hw' => ?_,
    decode_eq_none_iff_forall_row⟩
  · obtain ⟨i, -, rfl⟩ := List.mem_map.1 hrow
    exact ⟨_, decode_of_row hw, rowOf_withOperands w i⟩
  · rintro ⟨i, hi, rfl⟩
    exact row_of_decode hi
  · obtain ⟨i, -, rfl⟩ := List.mem_map.1 hrow
    obtain ⟨j, -, rfl⟩ := List.mem_map.1 hrow'
    have hij : i.withOperands w = j.withOperands w :=
      Option.some.inj ((decode_of_row hw).symm.trans (decode_of_row hw'))
    rw [← rowOf_withOperands w i, hij, rowOf_withOperands]

/-! ### Fields are masked bits -/

section
variable (w : Word)

/-- A mask of the low `k` bits keeps exactly those. -/
theorem and_low_toNat (k : Nat) (hk : k ≤ 16) : (w &&& BitVec.ofNat 16 (2 ^ k - 1)).toNat = w.toNat % 2 ^ k := by
  have : 2 ^ k ≤ 2 ^ 16 := Nat.pow_le_pow_right (by decide) hk
  rw [BitVec.toNat_and, BitVec.toNat_ofNat, Nat.mod_eq_of_lt (a := 2 ^ k - 1) (by omega),
    Nat.and_two_pow_sub_one_eq_mod]

theorem and_F_toNat : (w &&& 0xF).toNat = nOf w :=
  (and_low_toNat w 4 (by decide)).trans (by simp [nOf, field])

theorem and_FF_toNat : (w &&& 0xFF).toNat = field w 7 0 :=
  (and_low_toNat w 8 (by decide)).trans (by simp [field])

theorem and_FFF_toNat : (w &&& 0xFFF).toNat = field w 11 0 :=
  (and_low_toNat w 12 (by decide)).trans (by simp [field])

theorem shiftRight_and_F_toNat (k : Nat) : (w >>> k &&& 0xF).toNat = field w (k + 3) k := by
  rw [and_F_toNat, nOf, field, field, BitVec.toNat_ushiftRight, Nat.shiftRight_eq_div_pow, pow_zero, Nat.div_one,
    show k + 3 + 1 - k = 3 + 1 - 0 by omega]

theorem nnOf_eq_or : nnOf w = BitVec.ofNat 8 ((yOf w).val <<< 4 ||| nOf w) := by
  rw [← Nat.shiftLeft_add_eq_or_of_lt (field_n_lt w), Nat.shiftLeft_eq, yOf_val, nnOf, field_7_0, nOf]

theorem nnnOf_eq_or : nnnOf w = BitVec.ofNat 12 ((xOf w).val <<< 8 ||| (nnOf w).toNat) := by
  rw [← Nat.shiftLeft_add_eq_or_of_lt (nnOf w).isLt, Nat.shiftLeft_eq, xOf_val, nnOf_toNat, nnnOf, field_11_0]

end

/-- Settles O4, each field by its mask. -/
theorem fieldsAreMaskedBits : Obligations.FieldsAreMaskedBits := fun w =>
  ⟨(shiftRight_and_F_toNat w 12).symm, (xOf_val w).trans (shiftRight_and_F_toNat w 8).symm,
    (yOf_val w).trans (shiftRight_and_F_toNat w 4).symm, (and_F_toNat w).symm,
    (nnOf_toNat w).trans (and_FF_toNat w).symm, (nnnOf_toNat w).trans (and_FFF_toNat w).symm,
    nnOf_eq_or w, nnnOf_eq_or w⟩

/-! ### Illegal words -/

section
variable {w : Word}

theorem decodeFixed_eq_none_iff : decodeFixed w = none ↔ field w 11 0 ≠ 0xE0 ∧ field w 11 0 ≠ 0xEE := by
  unfold decodeFixed
  split_ifs <;> simp_all

theorem decodeAlu_eq_none_iff : decodeAlu w = none ↔ nOf w ∈ [0x8, 0x9, 0xA, 0xB, 0xC, 0xD, 0xF] := by
  have := field_n_lt w
  unfold decodeAlu
  split <;> simp_all [nOf]
  omega

theorem decodeKey_eq_none_iff : decodeKey w = none ↔ field w 7 0 ∉ [0x9E, 0xA1] := by
  unfold decodeKey
  split_ifs <;> simp_all

theorem decodeMisc_eq_none_iff :
    decodeMisc w = none ↔ field w 7 0 ∉ [0x07, 0x0A, 0x15, 0x18, 0x1E, 0x29, 0x33, 0x55, 0x65] := by
  unfold decodeMisc
  split_ifs <;> simp_all

/-- The illegal words by `op` and the low fields (R76). -/
theorem decode_eq_none_iff_fields : decode w = none ↔
    (opOf w = 0x0 ∧ field w 11 0 ≠ 0xE0 ∧ field w 11 0 ≠ 0xEE) ∨
    (opOf w = 0x5 ∧ nOf w ≠ 0) ∨
    (opOf w = 0x8 ∧ nOf w ∈ [0x8, 0x9, 0xA, 0xB, 0xC, 0xD, 0xF]) ∨
    (opOf w = 0x9 ∧ nOf w ≠ 0) ∨
    (opOf w = 0xE ∧ field w 7 0 ∉ [0x9E, 0xA1]) ∨
    (opOf w = 0xF ∧ field w 7 0 ∉ [0x07, 0x0A, 0x15, 0x18, 0x1E, 0x29, 0x33, 0x55, 0x65]) := by
  have hop : opOf w < 16 := field_op_lt w
  rw [← decodeFixed_eq_none_iff, ← decodeAlu_eq_none_iff, ← decodeKey_eq_none_iff, ← decodeMisc_eq_none_iff]
  unfold decode
  split <;> simp_all
  omega

theorem shiftRight_12_eq_iff {v : Word} : w >>> 12 = v ↔ opOf w = v.toNat := by
  have := w.isLt
  rw [← BitVec.toNat_inj, BitVec.toNat_ushiftRight, Nat.shiftRight_eq_div_pow, opOf, field]
  norm_num
  omega

theorem and_F_ne_zero_iff : w &&& 0xF ≠ 0 ↔ nOf w ≠ 0 := by
  rw [← and_F_toNat, ne_eq, ← BitVec.toNat_inj]
  rfl

theorem ne_iff_of_op_zero {v : Word} (hw : opOf w = 0) (hv : opOf v = 0) :
    w ≠ v ↔ field w 11 0 ≠ field v 11 0 := by
  rw [ne_eq, ← BitVec.toNat_inj, toNat_eq_op_low w, toNat_eq_op_low v, hw, hv]
  omega

end

/-! ### Counting illegal words -/

section
open Machine

theorem opOf_familyWord {op k : Nat} (hop : op < 16) (hk : k < 4096) :
    opOf (BitVec.ofNat 16 (op * 4096 + k)) = op := by
  simp only [opOf, field, BitVec.toNat_ofNat]
  norm_num
  omega

theorem field_11_0_familyWord {op k : Nat} (hk : k < 4096) :
    field (BitVec.ofNat 16 (op * 4096 + k)) 11 0 = k := by
  simp only [field, BitVec.toNat_ofNat]
  norm_num
  omega

theorem nOf_eq_low_mod (w : Word) : nOf w = field w 11 0 % 16 := by
  simp only [nOf, field]
  norm_num

theorem field_7_0_eq_low_mod (w : Word) : field w 7 0 = field w 11 0 % 256 := by
  simp only [field]
  norm_num

/-- Where the low 12 bits say which words of a family are illegal, the count is over those bits. -/
theorem illegalCount_eq_countP {op : Nat} {p : Nat → Bool} (hop : op < 16)
    (h : ∀ w, opOf w = op → (decode w = none ↔ p (field w 11 0) = true)) :
    illegalCount op = (List.range 4096).countP p := by
  rw [illegalCount, ← List.countP_eq_length_filter]
  refine List.countP_congr fun k hk => ?_
  have hk := List.mem_range.1 hk
  rw [Option.isNone_iff_eq_none, h _ (opOf_familyWord hop hk), field_11_0_familyWord hk]

/-- A test of `k % n` holds as often in each of `m` runs of `n`. -/
theorem countP_range_mul (p : Nat → Bool) (m n : Nat) :
    (List.range (m * n)).countP (fun k => p (k % n)) = m * (List.range n).countP p := by
  have hrun : (List.range n).countP (fun k => p (k % n)) = (List.range n).countP p :=
    List.countP_congr fun k hk => by rw [Nat.mod_eq_of_lt (List.mem_range.1 hk)]
  induction m with
  | zero => simp
  | succ m ih =>
    have hshift : (fun k => p (k % n)) ∘ (fun k => m * n + k) = fun k => p (k % n) :=
      funext fun k => congrArg p (Nat.mul_add_mod' m n k)
    rw [Nat.succ_mul, List.range_add, List.countP_append, List.countP_map, hshift, ih, hrun, Nat.succ_mul]

/-- Two values below `n` fail a test for being neither. -/
theorem countP_range_ne_ne {a b n : Nat} (ha : a < n) (hb : b < n) (hab : a ≠ b) :
    (List.range n).countP (fun k => k != a && k != b) = n - 2 := by
  have hmem : a ∈ (List.range n).erase b := (List.mem_erase_of_ne hab).2 (List.mem_range.2 ha)
  rw [List.countP_eq_length_filter, ← List.filter_filter, ← List.nodup_range.erase_eq_filter,
    ← (List.nodup_range.erase b).erase_eq_filter, List.length_erase_of_mem hmem,
    List.length_erase_of_mem (List.mem_range.2 hb), List.length_range, Nat.sub_sub]

theorem illegalCount_fixed : illegalCount 0x0 = 4094 := by
  rw [illegalCount_eq_countP (p := fun k => k != 0xE0 && k != 0xEE) (by decide)
    fun w hop => by simp [decode_eq_none_iff_fields, hop]]
  exact countP_range_ne_ne (by decide) (by decide) (by decide)

/-- The count of a family whose illegal words are told by the low nibble. -/
theorem illegalCount_nibble {op : Nat} (p : Nat → Bool) (hop : op < 16)
    (h : ∀ w, opOf w = op → (decode w = none ↔ p (nOf w) = true)) :
    illegalCount op = 256 * (List.range 16).countP p := by
  rw [← countP_range_mul]
  exact illegalCount_eq_countP hop fun w hw => by rw [h w hw, nOf_eq_low_mod]

/-- The count of a family whose illegal words are told by the low byte. -/
theorem illegalCount_byte {op : Nat} (p : Nat → Bool) (hop : op < 16)
    (h : ∀ w, opOf w = op → (decode w = none ↔ p (field w 7 0) = true)) :
    illegalCount op = 16 * (List.range 256).countP p := by
  rw [← countP_range_mul]
  exact illegalCount_eq_countP hop fun w hw => by rw [h w hw, field_7_0_eq_low_mod]

theorem illegalCount_reg {op : Nat} (hop : op = 0x5 ∨ op = 0x9) : illegalCount op = 3840 := by
  refine illegalCount_nibble (· != 0) (by omega) fun w hw => ?_
  obtain rfl | rfl := hop <;> simp [decode_eq_none_iff_fields, hw]

theorem illegalCount_alu : illegalCount 0x8 = 1792 :=
  illegalCount_nibble (· ∈ [0x8, 0x9, 0xA, 0xB, 0xC, 0xD, 0xF]) (by decide) fun w hw => by
    simp [decode_eq_none_iff_fields, hw]

theorem illegalCount_key : illegalCount 0xE = 4064 := by
  rw [illegalCount_byte (· ∉ [0x9E, 0xA1]) (by decide) fun w hw => by simp [decode_eq_none_iff_fields, hw]]
  decide +kernel

theorem illegalCount_misc : illegalCount 0xF = 3952 := by
  rw [illegalCount_byte (· ∉ [0x07, 0x0A, 0x15, 0x18, 0x1E, 0x29, 0x33, 0x55, 0x65]) (by decide) fun w hw => by
    simp [decode_eq_none_iff_fields, hw]]
  decide +kernel

/-- In the other ten families every word is legal. -/
theorem illegalCount_eq_zero {op : Nat} (hop : op < 16) (h : op ∉ [0x0, 0x5, 0x8, 0x9, 0xE, 0xF]) :
    illegalCount op = 0 := by
  rw [illegalCount_eq_countP (p := fun _ => false) hop fun w hw => by
    simp_all [decode_eq_none_iff_fields], List.countP_false]
  rfl

theorem map_illegalCount : (List.range 16).map illegalCount =
    [4094, 0, 0, 0, 0, 3840, 0, 0, 1792, 3840, 0, 0, 0, 0, 4064, 3952] := by
  simp [List.range_succ, illegalCount_fixed, illegalCount_reg, illegalCount_alu, illegalCount_key,
    illegalCount_misc, illegalCount_eq_zero]

end

/-- Settles O5: the families by their fields, and a count for each. -/
theorem illegalWordsByFamily : Obligations.IllegalWordsByFamily := by
  refine ⟨fun w => ?_, map_illegalCount, by rw [map_illegalCount]; rfl⟩
  have hfixed : w >>> 12 = 0x0 ∧ w ≠ 0x00E0 ∧ w ≠ 0x00EE ↔
      opOf w = 0x0 ∧ field w 11 0 ≠ 0xE0 ∧ field w 11 0 ≠ 0xEE :=
    (and_congr_left' shiftRight_12_eq_iff).trans <| and_congr_right fun hop =>
      and_congr (ne_iff_of_op_zero hop rfl) (ne_iff_of_op_zero hop rfl)
  rw [decode_eq_none_iff_fields, hfixed, and_F_ne_zero_iff, and_F_toNat, and_FF_toNat]
  simp only [shiftRight_12_eq_iff]
  rfl

/-! ### Bytes -/

/-- A decoder reads the word of the first two bytes and leaves the bytes after them (R70). -/
theorem decodeBytes_cons_cons (hi lo : Byte) (rest : List Byte) :
    decodeBytes (hi :: lo :: rest) = (decode (joinBytes hi lo)).map fun i => (i, rest) := rfl

/-- Settles O6: two bytes are joined big-endian, and the two cells of a word join to that word. -/
theorem decodeConsumesTwoBytes : Obligations.DecodeConsumesTwoBytes := by
  refine ⟨fun hi lo rest => ?_, rfl, fun _ => rfl, fun i rest hwf => ?_⟩
  · rw [decodeBytes_cons_cons, Machine.joinBytes_eq_or]
  · change decodeBytes (highByte (encode i) :: lowByte (encode i) :: rest) = _
    rw [decodeBytes_cons_cons, joinBytes_cells, decodeOfEncodeIsIdentity i hwf]
    rfl

/-! ### Written-out words -/

/-- Settles O7: each word is decoded by evaluation. -/
theorem specWordsDecode : Obligations.SpecWordsDecode := by
  unfold Obligations.SpecWordsDecode
  decide

end Sys2Proof
end

section
/-! PROOFS. The engine (spec 40_engine.md): the stages of a step and what each answers (R100 to R103, R107), the word
that `withFetchWord` places, and the steps that use no entropy (R109). -/

namespace Sys2Proof.Machine

/-! ### The stages of a step -/

/-- Settles O10. -/
theorem idleStepsChangeNothing : Obligations.IdleStepsChangeNothing := by
  rintro s (⟨x, hr⟩ | ⟨e, hr⟩)
  · simp only [step, stepEngine, hr]
  · simp only [step, stepEngine, hr]

theorem step_of_fetch_fails {s : State} (hr : s.run = .running) (hpc : 4095 < s.pc.toNat + 1) :
    step s = .next (s.setRun (.halted (.addressOutOfRange s.pc.toNat))) := by
  simp only [step, stepEngine, hr, stepRunning, State.fetch_of_gt s hpc, State.raise_eq_setRun]

theorem step_of_decode_fails {s : State} (hr : s.run = .running) (hpc : s.pc.toNat + 1 ≤ 4095)
    (hd : decode s.word = none) : step s = .next (s.setRun (.halted (.unknownOpcode s.word))) := by
  simp only [step, stepEngine, hr, stepRunning, State.fetch_eq_word hpc, hd, State.raise_eq_setRun]

/-- Settles O8. -/
theorem stepRunsDecodedInstruction : Obligations.StepRunsDecodedInstruction := fun _ _ => step_eq_exec

/-- Where a step of any state stops, in the order of R238: before the fetch, at it, at the decoder, or at an
instruction. -/
theorem State.stage_cases (s : State) :
    (s.Waiting ∨ s.Halted) ∨ (s.run = .running ∧ 4095 < s.pc.toNat + 1) ∨
    (s.run = .running ∧ s.pc.toNat + 1 ≤ 4095 ∧ decode s.word = none) ∨
    (∃ i, s.run = .running ∧ s.pc.toNat + 1 ≤ 4095 ∧ decode s.word = some i) := by
  cases hr : s.run with
  | waiting x => exact .inl (.inl ⟨x, hr⟩)
  | halted e => exact .inl (.inr ⟨e, hr⟩)
  | running =>
    by_cases hpc : s.pc.toNat + 1 ≤ 4095
    · cases hd : decode s.word with
      | none => exact .inr (.inr (.inl ⟨rfl, hpc, rfl⟩))
      | some i => exact .inr (.inr (.inr ⟨i, rfl, hpc, rfl⟩))
    · exact .inr (.inl ⟨rfl, Nat.lt_of_not_le hpc⟩)

theorem exec_answers_next (i : Instr) (s : State) : ∃ t, exec i s = .next t := by
  cases he : i.errorOn s with
  | some e => exact ⟨_, exec_of_error i s e he⟩
  | none => exact ⟨_, exec_completes he⟩

/-- Settles O15: each stage of a step answers a next state, the last one because every instruction does. -/
theorem everyStepAnswersANextState : Obligations.EveryStepAnswersANextState := by
  refine ⟨exec_answers_next, fun s => ?_⟩
  obtain hidle | ⟨hr, hpc⟩ | ⟨hr, hpc, hd⟩ | ⟨i, hr, hpc, hd⟩ := s.stage_cases
  · exact ⟨_, idleStepsChangeNothing s hidle⟩
  · exact ⟨_, step_of_fetch_fails hr hpc⟩
  · exact ⟨_, step_of_decode_fails hr hpc hd⟩
  · rw [step_eq_exec hr hpc hd]
    exact exec_answers_next i s

/-! ### The placed word -/

theorem fetchablePc_le (pc : Word) : (fetchablePc pc).toNat + 1 ≤ 4095 := by
  unfold fetchablePc
  split
  · assumption
  · decide

theorem fetchablePc_of_le {pc : Word} (h : pc.toNat + 1 ≤ 4095) : fetchablePc pc = pc := if_pos h

theorem tableWord_sixteen (w : Nat) : tableWord 16 w = BitVec.ofNat 16 w :=
  BitVec.eq_of_toNat_eq (by simp [tableWord])

/-- `placeWord` by the named updates of the state. -/
theorem State.placeWord_eq (s : State) (w : Word) :
    s.placeWord w = ((s.setRun .running).finish (.jump (fetchablePc s.pc))).writeBytes
      (fetchablePc s.pc).toNat (bytesOfWord w) := rfl

@[simp] theorem State.placeWord_pc (s : State) (w : Word) : (s.placeWord w).pc = fetchablePc s.pc :=
  State.writeBytes_pc _ _ _

@[simp] theorem State.placeWord_run (s : State) (w : Word) : (s.placeWord w).run = .running :=
  State.writeBytes_run _ _ _

theorem State.placeWord_frame (s : State) (w : Word) :
    Frame [.mem, .pc, .run] [] (fetchablePc s.pc).toNat 2 s (s.placeWord w) := by
  rw [State.placeWord_eq]
  exact ((Frame.refl.setRun (by simp)).finish (by simp)).writeBytes (by simp) (Nat.le_refl 2)

/-- The next fetch reads the word just placed (R55, R63). -/
theorem State.word_placeWord {s : State} (hwf : s.memWf = true) (w : Word) : (s.placeWord w).word = w := by
  have hle := fetchablePc_le s.pc
  refine (word_writeBytes (s := (s.setRun .running).finish (.jump (fetchablePc s.pc)))
    (hi := highByte w) (lo := lowByte w) (rest := []) hwf ?_).trans ?_
  · change (fetchablePc s.pc).toNat + 2 ≤ 4096
    omega
  · rw [← joinBytes_eq_or, joinBytes_cells]

/-- Settles O11: the placed word is read back from a `pc` at which the fetch succeeds. -/
theorem placedWordRuns : Obligations.PlacedWordRuns := by
  intro s w i hwf _ hd
  rw [State.withFetchWord, tableWord_sixteen, State.placeWord_pc]
  have hword := State.word_placeWord hwf (BitVec.ofNat 16 w)
  have hf := State.placeWord_frame s (BitVec.ofNat 16 w)
  have hpc : (s.placeWord (BitVec.ofNat 16 w)).pc.toNat + 1 ≤ 4095 := by
    rw [State.placeWord_pc]
    exact fetchablePc_le s.pc
  exact ⟨step_eq_exec (State.placeWord_run s _) hpc (by rwa [hword]), hword, hf.components, hf.cells,
    fetchablePc_of_le⟩

/-! ### Another entropy source -/

/-- The state with another entropy source. -/
def State.withSource (s : State) (e : Entropy) : State := { s with entropy := e }

section
variable (s : State) (e : Entropy)

theorem State.writeBytes_withSource (a : Nat) (us : List Byte) :
    (s.withSource e).writeBytes a us = (s.writeBytes a us).withSource e := by
  induction us generalizing s a with
  | nil => rfl
  | cons u us ih => exact ih (s.writeByte a u) (a + 1)

theorem State.setVs_withSource (r : Nat) (us : List Byte) :
    (s.withSource e).setVs r us = (s.setVs r us).withSource e := by
  induction us generalizing s r with
  | nil => rfl
  | cons u us ih => exact ih (s.setV (Fin.ofNat 16 r) u) (r + 1)

/-- The source plays no part in a check. -/
theorem errorOn_withSource (i : Instr) : i.errorOn (s.withSource e) = i.errorOn s := by
  cases i <;> rfl

/-- An instruction other than `Cxnn` does the same with another source, and keeps it. -/
theorem completed_withSource {i : Instr} (hrnd : ∀ x nn, i ≠ .rnd x nn) :
    i.completed (s.withSource e) = (i.completed s).withSource e := by
  cases i
  case rnd x nn => exact absurd rfl (hrnd x nn)
  case drw x y n =>
    have hdraw : (s.withSource e).drawSprite x y n = s.drawSprite x y n :=
      State.drawSprite_congr (s := s) (s' := s.withSource e) rfl rfl rfl (fun _ => rfl) rfl n
    simp only [Instr.completed, Instr.effect, hdraw]
    rfl
  case addI =>
    simp only [Instr.completed, Instr.effect, State.withSource]
    cases s.params.indexOverflow <;> rfl
  case storeRegs x =>
    have hread : (s.withSource e).getVs 0 (blockLength x) = s.getVs 0 (blockLength x) :=
      State.getVs_congr fun _ _ => rfl
    simp only [Instr.completed, Instr.effect, hread, State.writeBytes_withSource]
    rfl
  case loadRegs x =>
    have hread (a : Nat) : (s.withSource e).readBytes a (blockLength x) = s.readBytes a (blockLength x) :=
      State.readBytes_congr (s := s) (s' := s.withSource e) (fun _ => rfl) a _
    simp only [Instr.completed, Instr.effect, hread, State.setVs_withSource]
    rfl
  all_goals rfl

end

theorem exec_withSource {i : Instr} {s t : State} (e : Entropy) (hrnd : ∀ x nn, i ≠ .rnd x nn)
    (h : exec i s = .next t) : exec i (s.withSource e) = .next (t.withSource e) := by
  obtain ⟨err, he, rfl⟩ | ⟨he, rfl⟩ := exec_cases h
  · exact exec_of_error i _ err ((errorOn_withSource s e i).trans he)
  · rw [exec_completes ((errorOn_withSource s e i).trans he), completed_withSource s e hrnd]

/-- Settles O23: the stages before execution do not see the source, and of the instructions only `Cxnn` does. -/
theorem onlyRandomReadsEntropy : Obligations.OnlyRandomReadsEntropy := by
  intro s t e hrnd h
  change step (s.withSource e) = .next (t.withSource e)
  obtain hidle | ⟨hr, hpc⟩ | ⟨hr, hpc, hd⟩ | ⟨i, hr, hpc, hd⟩ := s.stage_cases
  · cases (idleStepsChangeNothing s hidle).symm.trans h
    exact idleStepsChangeNothing _ hidle
  · cases (step_of_fetch_fails hr hpc).symm.trans h
    exact step_of_fetch_fails (s := s.withSource e) hr hpc
  · cases (step_of_decode_fails hr hpc hd).symm.trans h
    exact step_of_decode_fails (s := s.withSource e) hr hpc hd
  · rw [step_eq_exec hr hpc hd] at h
    rw [step_eq_exec (s := s.withSource e) hr hpc hd]
    exact exec_withSource e (fun x nn hi => hrnd x nn (hi ▸ hd)) h

end Sys2Proof.Machine
end

section
/-! PROOFS. Control transfer (spec 41_control_flow.md): a row decodes to its instruction with the word's own fields
(R71, R75), the jumps (R121, R127), the call stack (R120, R122) and the conditional skips (R123 to R126). -/

namespace Sys2Proof

/-! ### Rows in the spelling of claims -/

theorem nnOf_eq_extractLsb' (w : Word) : nnOf w = w.extractLsb' 0 8 := by
  apply BitVec.eq_of_toNat_eq
  rw [nnOf_toNat, BitVec.extractLsb'_toNat, field, pow_zero, Nat.div_one, Nat.shiftRight_zero]

theorem nnnOf_eq_extractLsb' (w : Word) : nnnOf w = w.extractLsb' 0 12 := by
  apply BitVec.eq_of_toNat_eq
  rw [nnnOf_toNat, BitVec.extractLsb'_toNat, field, pow_zero, Nat.div_one, Nat.shiftRight_zero]

end Sys2Proof

namespace Sys2Proof.Machine

/-- The words of the row of `i` decode to the instruction whose operands are the word's fields (R75). -/
theorem decodesRow_of_withOperands (i : Instr) {f : Word → Instr} (hf : ∀ w, i.withOperands w = f w) :
    DecodesRow (rowOf i).mask (rowOf i).value f :=
  fun w hw => hf w ▸ decode_of_row hw

/-- A row of format `NNN`. -/
theorem decodesRow_nnn (i : Instr) {f : Addr → Instr} (hf : ∀ w, i.withOperands w = f (nnnOf w)) :
    DecodesRow (rowOf i).mask (rowOf i).value fun w => f (w.extractLsb' 0 12) :=
  decodesRow_of_withOperands i fun w => by rw [hf, nnnOf_eq_extractLsb']

/-- A row of format `XNN`. -/
theorem decodesRow_xnn (i : Instr) {f : Reg → Byte → Instr} (hf : ∀ w, i.withOperands w = f (xOf w) (nnOf w)) :
    DecodesRow (rowOf i).mask (rowOf i).value fun w => f (bitsX w) (w.extractLsb' 0 8) :=
  decodesRow_of_withOperands i fun w => by rw [hf, xOf_eq_bitsX, nnOf_eq_extractLsb']

/-- A row of format `XY0`. -/
theorem decodesRow_xy (i : Instr) {f : Reg → Reg → Instr} (hf : ∀ w, i.withOperands w = f (xOf w) (yOf w)) :
    DecodesRow (rowOf i).mask (rowOf i).value fun w => f (bitsX w) (bitsY w) :=
  decodesRow_of_withOperands i fun w => by rw [hf, xOf_eq_bitsX, yOf_eq_bitsY]

/-! ### Completion by `pc` alone -/

theorem completed_pc (i : Instr) (s : State) : (i.completed s).pc = pcAfter s.pc (i.outcome s) := by
  rw [Instr.completed, State.finish_pc, effect_pc]

/-- An instruction without an error that may write `pc` alone completes with its outcome (R103, R104). -/
theorem completesWithPc_outcome {i : Instr} {s : State} (he : i.errorOn s = none) (hw : i.writes s.params = [.pc]) :
    CompletesWithPc i s (pcAfter s.pc (i.outcome s)) :=
  ⟨_, exec_completes he, completed_pc i s, hw ▸ (completed_frame i s).components⟩

/-- A conditional instruction skips exactly when its condition holds (R105). -/
theorem completesWithPc_skipIf {i : Instr} {s : State} {c : Bool} {p : Prop} [Decidable p] (he : i.errorOn s = none)
    (hw : i.writes s.params = [.pc]) (ho : i.outcome s = skipIf c) (hc : c = true ↔ p) :
    CompletesWithPc i s (if p then s.pc + 4 else s.pc + 2) := by
  have h := completesWithPc_outcome he hw
  simpa only [ho, pcAfter_skipIf, hc] using h

/-! ### Jumps -/

/-- Settles O26: a jump completes with its target, and from a `pc` of 0xFFF the fetch fails. -/
theorem jumpSetsPc : Obligations.JumpSetsPc := by
  refine ⟨decodesRow_nnn (.jp 0) fun _ => rfl, fun nnn s => completesWithPc_outcome rfl rfl, fun s t hr h => ?_⟩
  obtain ⟨e, he, -⟩ | ⟨-, rfl⟩ := exec_cases h
  · cases he
  · have hpc : ((Instr.jp 0xFFF).completed s).pc = 0xFFF := completed_pc (.jp 0xFFF) s
    exact step_of_fetch_fails hr (by rw [hpc]; decide)

/-- Settles O31: the target is the sum as a number. -/
theorem indexedJumpAddsV0 : Obligations.IndexedJumpAddsV0 := by
  refine ⟨decodesRow_nnn (.jpV0 0) fun _ => rfl, fun nnn s => ?_⟩
  obtain ⟨t, hexec, hpc, hframe⟩ := completesWithPc_outcome (i := .jpV0 nnn) (s := s) rfl rfl
  exact ⟨t, hexec, hpc ▸ s.indexedTarget_toNat nnn, hframe⟩

/-! ### The call stack -/

theorem errorOn_ret_of_pos {s : State} (h : 0 < s.sp.val) : Instr.errorOn s .ret = none :=
  if_neg fun hs => by simp [hs] at h

theorem errorOn_call_of_lt {s : State} {nnn : Addr} (h : s.sp.val < 16) : Instr.errorOn s (.call nnn) = none :=
  if_neg fun hs => by simp [hs] at h

theorem completed_ret_sp (s : State) : (Instr.ret.completed s).sp.val = s.sp.val - 1 := by
  change (s.sp.val - 1) % 17 = s.sp.val - 1
  omega

theorem completed_call_sp {nnn : Addr} {s : State} (h : s.sp.val < 16) :
    ((Instr.call nnn).completed s).sp.val = s.sp.val + 1 :=
  Nat.mod_eq_of_lt (by omega)

/-- The entries after a call: the return address at the old `sp`, the others kept (R122). -/
theorem completed_call_stack (nnn : Addr) (s : State) (j : Fin 16) :
    ((Instr.call nnn).completed s).stack[j.val] = if s.sp.val = j.val then s.pc + 2 else s.stack[j.val] :=
  Vector.getElem_setIfInBounds ..

/-- Settles O27: with an entry on the stack the check passes, with none it fails. -/
theorem returnPopsPc : Obligations.ReturnPopsPc := by
  refine ⟨decodesRow_of_withOperands .ret fun _ => rfl, fun s k hk => ?_, fun s hs => ?_⟩
  · have hprev : s.sp.val - 1 = k.val := by omega
    refine ⟨_, exec_completes (errorOn_ret_of_pos (by omega)), (completed_ret_sp s).trans hprev, ?_,
      (completed_frame .ret s).components⟩
    rw [completed_pc, Instr.outcome, pcAfter_jump]
    simp only [hprev]
  · exact exec_of_error .ret s _ (if_pos hs)

/-- Settles O28: with fewer than 16 entries the check passes, with 16 it fails. -/
theorem callPushesReturnAddress : Obligations.CallPushesReturnAddress := by
  refine ⟨decodesRow_nnn (.call 0) fun _ => rfl, fun nnn s k hk => ?_, fun nnn s hs => ?_⟩
  · have hlt : s.sp.val < 16 := hk ▸ k.isLt
    refine ⟨_, exec_completes (errorOn_call_of_lt hlt), hk ▸ completed_call_sp hlt, ?_, fun j hj => ?_,
      completed_pc (.call nnn) s, (completed_frame (.call nnn) s).components⟩
    · rw [completed_call_stack, if_pos hk]
    · rw [completed_call_stack, if_neg fun h => hj (Fin.ext (h.symm.trans hk))]
  · exact exec_of_error (.call nnn) s _ (if_pos hs)

/-- Settles O29: the entry that the return pops is the one that the call pushed. -/
theorem callThenReturnResumes : Obligations.CallThenReturnResumes := by
  intro nnn s t u hlt hcall hsp hstack
  obtain ⟨-, hpush, -⟩ := callPushesReturnAddress
  obtain ⟨-, hpop, -⟩ := returnPopsPc
  obtain ⟨t', hcall', htsp, htop, -⟩ := hpush nnn s ⟨s.sp.val, hlt⟩ rfl
  cases hcall.symm.trans hcall'
  obtain ⟨r, hret, hrsp, hrpc, hframe⟩ := hpop u ⟨s.sp.val, hlt⟩ (hsp ▸ htsp)
  refine ⟨r, hret, ?_, Fin.ext hrsp, hframe⟩
  rw [hrpc, hstack, htop]

/-! ### Conditional skips -/

/-- Families 0x5 and 0x9 have no instruction with another low nibble than 0 (R125, R126). -/
theorem decode_eq_none_of_low_nibble {w : Word} (hop : w &&& 0xF000 = 0x5000 ∨ w &&& 0xF000 = 0x9000)
    (hn : w &&& 0xF ≠ 0) : decode w = none := by
  have hlow := and_F_ne_zero_iff.1 hn
  obtain h | h := hop
  · have hop5 : opOf w = 5 := (and_F000_iff w 5 (by decide)).1 h
    simp [decode_eq_none_iff_fields, hop5, hlow]
  · have hop9 : opOf w = 9 := (and_F000_iff w 9 (by decide)).1 h
    simp [decode_eq_none_iff_fields, hop9, hlow]

/-- Settles O30: four rows, the words that are in none of them, and four instructions that check nothing, write `pc`
alone and skip by their comparison. -/
theorem conditionalSkips : Obligations.ConditionalSkips := by
  refine ⟨⟨decodesRow_xnn (.seImm 0 0) fun _ => rfl, decodesRow_xnn (.sneImm 0 0) fun _ => rfl,
    decodesRow_xy (.seReg 0 0) fun _ => rfl, decodesRow_xy (.sneReg 0 0) fun _ => rfl⟩,
    fun _ => decode_eq_none_of_low_nibble, fun x y nn s => ⟨?_, ?_, ?_, ?_⟩⟩
  · exact completesWithPc_skipIf rfl rfl rfl beq_iff_eq
  · exact completesWithPc_skipIf rfl rfl rfl bne_iff_ne
  · exact completesWithPc_skipIf rfl rfl rfl beq_iff_eq
  · exact completesWithPc_skipIf rfl rfl rfl bne_iff_ne

end Sys2Proof.Machine
end

section
/-! PROOFS. Loads and logic (spec 42_alu.md R141 to R146), shifts with the bit shifted out (R149, R151) and the random
byte (R152). -/

namespace Sys2Proof.Machine

/-! ### Results without a flag -/

/-- A sum without a flag is the sum of bytes (R142). -/
theorem sumByte_eq_add (a b : Byte) : sumByte a b = a + b :=
  BitVec.eq_of_toNat_eq (by rw [sumByte_toNat, BitVec.toNat_add])

/-- The instructions that end with `putV` complete with the result (R141 to R146). -/
theorem completesWithReg_of_putV {i : Instr} {s : State} {x : Reg} {u : Byte} (h : exec i s = s.putV x u) :
    CompletesWithReg i s x u := by
  have hf : Frame [.v, .pc] [x] 0 0 s ((s.setV x u).finish .next) :=
    (Frame.refl.setV (by simp) (by simp)).finish (by simp)
  exact ⟨_, h, s.getV_setV_self x u, hf.regs, rfl, hf.components⟩

/-- Settles O32: the six rows, and `putV` with each result, that of `7xnn` in the model's spelling of the sum. -/
theorem loadsAndLogicWriteVx : Obligations.LoadsAndLogicWriteVx := by
  refine ⟨⟨decodesRow_xnn (.ldImm 0 0) fun _ => rfl, decodesRow_xnn (.addImm 0 0) fun _ => rfl,
    decodesRow_xy (.ldReg 0 0) fun _ => rfl, decodesRow_xy (.orReg 0 0) fun _ => rfl,
    decodesRow_xy (.andReg 0 0) fun _ => rfl, decodesRow_xy (.xorReg 0 0) fun _ => rfl⟩,
    fun x y nn s => ⟨completesWithReg_of_putV rfl, ?_, completesWithReg_of_putV rfl, completesWithReg_of_putV rfl,
      completesWithReg_of_putV rfl, completesWithReg_of_putV rfl⟩⟩
  rw [← sumByte_eq_add]
  exact completesWithReg_of_putV rfl

/-! ### Shifts -/

/-- The shifted byte, in the spelling of claims (R149, R151). -/
theorem State.shiftOperand_eq_ite (s : State) (x y : Reg) :
    s.shiftOperand x y = if s.params.shiftSource = .vy then s.getV y else s.getV x := by
  unfold State.shiftOperand
  cases s.params.shiftSource <;> rfl

theorem shiftRight1_eq (a : Byte) : shiftRight1 a = a >>> 1 := by
  apply BitVec.eq_of_toNat_eq
  have := a.isLt
  simp only [shiftRight1, BitVec.toNat_ofNat, BitVec.toNat_ushiftRight, Nat.shiftRight_eq_div_pow]
  omega

theorem shiftLeft1_eq (a : Byte) : shiftLeft1 a = a <<< 1 := by
  apply BitVec.eq_of_toNat_eq
  simp only [shiftLeft1, BitVec.toNat_ofNat, BitVec.toNat_shiftLeft, Nat.shiftLeft_eq, pow_one]

theorem lowBitOut_eq_getLsbD (a : Byte) : lowBitOut a = a.getLsbD 0 := by
  rw [lowBitOut, BitVec.getLsbD, Nat.testBit_zero]

theorem highBitOut_eq_getLsbD (a : Byte) : highBitOut a = a.getLsbD 7 := by
  have hlt : a.toNat / 128 < 2 := Nat.div_lt_of_lt_mul a.isLt
  rw [highBitOut, BitVec.getLsbD, Nat.testBit_eq_decide_div_mod_eq, Nat.mod_eq_of_lt hlt]

/-- Settles O34: the two rows, and `putVF` with the shifted source and the bit shifted out. -/
theorem shiftsSetTheBitShiftedOut : Obligations.ShiftsSetTheBitShiftedOut := by
  refine ⟨⟨decodesRow_xy (.shrReg 0 0) fun _ => rfl, decodesRow_xy (.shlReg 0 0) fun _ => rfl⟩,
    fun x y s src hsrc => ?_⟩
  obtain rfl : src = s.shiftOperand x y := hsrc.trans (s.shiftOperand_eq_ite x y).symm
  constructor
  · exact completesWithFlag_of_putVF rfl (by rw [shiftRight1_eq]) (by rw [lowBitOut_eq_getLsbD])
  · exact completesWithFlag_of_putVF rfl (by rw [shiftLeft1_eq]) (by rw [highBitOut_eq_getLsbD])

/-! ### The random byte -/

theorem Entropy.answer_of_fixed {e : Entropy} {r : Byte} {rest : List Byte} (h : e.fixed = r :: rest) :
    e.answer = r := by
  rw [Entropy.answer, h]

theorem Entropy.advance_fixed {e : Entropy} {r : Byte} {rest : List Byte} (h : e.fixed = r :: rest) :
    e.advance.fixed = rest := by
  rw [Entropy.advance, h, List.tail_cons]

/-- Settles O35: one answer is drawn, whatever the mask, and the masked answer is written. -/
theorem randomMasksTheNextAnswer : Obligations.RandomMasksTheNextAnswer := by
  refine ⟨decodesRow_xnn (.rnd 0 0) fun _ => rfl, fun x nn s => ?_⟩
  have hframe := completed_frame (.rnd x nn) s
  have hresult : ((Instr.rnd x nn).completed s).getV x = s.entropy.answer &&& nn := s.drawn.getV_setV_self x _
  refine ⟨_, exec_completes rfl, hresult, fun r rest hfixed => ⟨?_, Entropy.advance_fixed hfixed⟩, rfl,
    hframe.regs, completed_pc _ s, hframe.components⟩
  rw [hresult, Entropy.answer_of_fixed hfixed]

end Sys2Proof.Machine
end

section
/-! PROOFS. The index register and the memory-block instructions (spec 43_index_memory.md): `I` from an immediate, a sum
or a digit (R170 to R173), the decimal digits (R174) and the register blocks (R175, R176). -/

namespace Sys2Proof.Machine

/-- A row of format `XS`. -/
theorem decodesRow_xs (i : Instr) {f : Reg → Instr} (hf : ∀ w, i.withOperands w = f (xOf w)) :
    DecodesRow (rowOf i).mask (rowOf i).value fun w => f (bitsX w) :=
  decodesRow_of_withOperands i fun w => by rw [hf, xOf_eq_bitsX]

/-! ### The sum with `Vx` -/

theorem indexSum_toNat (i : Word) (a : Byte) : (indexSum i a).toNat = (i.toNat + a.toNat) % 65536 :=
  BitVec.toNat_ofNat ..

@[simp] theorem State.setIndexFlag_i (s : State) (q : IndexOverflowQuirk) (b : Bool) :
    (s.setIndexFlag q b).i = s.i := by
  cases q <;> rfl

theorem completed_addI_i (x : Reg) (s : State) : ((Instr.addI x).completed s).i = indexSum s.i (s.getV x) :=
  State.setIndexFlag_i ..

/-- With the parameter on, VF receives the overflow of the old sum (R172). -/
theorem getV_completed_addI_of_on {x : Reg} {s : State} (hq : s.params.indexOverflow = .on) :
    ((Instr.addI x).completed s).getV 15 = if 0xFFF < s.i.toNat + (s.getV x).toNat then 1 else 0 := by
  simp [Instr.completed, Instr.effect, hq, indexOverflows, flagByte]

/-- Settles O37: `I` is the sum for both values of the parameter, and the frame of `Fx1E` has VF only with ON. -/
theorem addToIndexWraps : Obligations.AddToIndexWraps := by
  refine ⟨decodesRow_xs (.addI 0) fun _ => rfl, fun x s => ?_⟩
  have hframe := completed_frame (.addI x) s
  refine ⟨_, exec_completes rfl, ?_, completed_pc (.addI x) s, fun hq => ?_, fun hq => ?_⟩
  · rw [completed_addI_i, indexSum_toNat]
  · simpa only [Instr.writes, hq] using hframe.components
  · simp only [Instr.writes, Instr.regsWritten, hq] at hframe
    exact ⟨getV_completed_addI_of_on hq, hframe.regs, hframe.components⟩

/-! ### The font address -/

/-- The largest address, 5 * 255, is below 65536. -/
theorem fontAddress_toNat (a : Byte) : (fontAddress a).toNat = 5 * a.toNat := by
  have := a.isLt
  simp only [fontAddress, Config.fontBase, BitVec.toNat_ofNat]
  omega

/-- Settles O38. -/
theorem fontAddressIsFiveTimesVx : Obligations.FontAddressIsFiveTimesVx :=
  ⟨decodesRow_xs (.ldFont 0) fun _ => rfl, fun x s => ⟨_, exec_completes rfl, fontAddress_toNat (s.getV x),
    completed_pc (.ldFont x) s, (completed_frame (.ldFont x) s).components⟩⟩

/-! ### Blocks in the address space -/

/-- A block that ends within memory has no error (R53). -/
theorem blockError_of_le {s : State} {n : Nat} (h : s.i.toNat + n ≤ 4096) : blockError s n = none :=
  if_neg (by omega)

/-- `I` just past a block that ends within memory does not wrap (R175, R176). -/
theorem indexPast_toNat {i : Word} {x : Reg} (h : i.toNat + x.val ≤ 4095) :
    (indexPast i x).toNat = i.toNat + x.val + 1 := by
  simp only [indexPast, blockLength, BitVec.toNat_ofNat]
  omega

/-! ### Decimal digits -/

/-- Digit `k` from the left, as a number; the first needs no reduction, since a byte is below 1000. -/
theorem decimalDigits_getElem_toNat (a : Byte) {k : Nat} (hk : k < 3) :
    (decimalDigits a)[k].toNat = a.toNat / 10 ^ (2 - k) % 10 := by
  have hlt := a.isLt
  match k, hk with
  | 0, _ | 1, _ | 2, _ =>
    simp only [decimalDigits, List.getElem_cons_zero, List.getElem_cons_succ, BitVec.toNat_ofNat]
    omega

/-- A completed `Fx33` leaves digit `k` of `Vx` in cell `I + k` (R174). -/
theorem readByte_completed_ldBcd {s : State} {x : Reg} (hwf : s.memWf = true) (hle : s.i.toNat + 3 ≤ 4096)
    {k : Nat} (hk : k < 3) :
    (((Instr.ldBcd x).completed s).readByte (s.i.toNat + k)).toNat = (s.getV x).toNat / 10 ^ (2 - k) % 10 := by
  rw [Instr.completed, Instr.effect, State.readByte_finish, State.readByte_writeBytes_inside _ _ _ _ hle hk hwf,
    decimalDigits_getElem_toNat]

/-- Settles O39: the check passes, each cell holds its digit, and the digits make up the byte. -/
theorem decimalDigitsAreStored : Obligations.DecimalDigitsAreStored := by
  refine ⟨decodesRow_xs (.ldBcd 0) fun _ => rfl, fun x s hwf hi => ?_⟩
  have hle : s.i.toNat + 3 ≤ 4096 := by omega
  have herr : Instr.errorOn s (.ldBcd x) = none := blockError_of_le hle
  have hframe := completed_frame (.ldBcd x) s
  have h0 := readByte_completed_ldBcd (x := x) hwf hle (k := 0) (by decide)
  have h1 := readByte_completed_ldBcd (x := x) hwf hle (k := 1) (by decide)
  have h2 := readByte_completed_ldBcd (x := x) hwf hle (k := 2) (by decide)
  rw [Nat.add_zero] at h0
  have hlt := (s.getV x).isLt
  exact ⟨_, exec_completes herr, by omega, by omega, by omega, by omega, hframe.cells, completed_memWf herr hwf,
    completed_pc (.ldBcd x) s, hframe.components⟩

/-! ### Register blocks -/

/-- Settles O40: the check passes, and `Vk` is byte `k` of the block written. -/
theorem registerBlockIsStored : Obligations.RegisterBlockIsStored := by
  refine ⟨decodesRow_xs (.storeRegs 0) fun _ => rfl, fun x s hwf hi => ?_⟩
  have herr : Instr.errorOn s (.storeRegs x) = none := blockError_of_le (Nat.succ_le_succ hi)
  have hframe := completed_frame (.storeRegs x) s
  exact ⟨_, exec_completes herr, fun k hk => readByte_completed_storeRegs herr hwf hk, hframe.cells,
    completed_memWf herr hwf, indexPast_toNat hi, completed_pc (.storeRegs x) s, hframe.components⟩

/-- A completed `Fx65` leaves cell `I + r` in `V[r]` (R176). -/
theorem getV_completed_loadRegs {s : State} {x r : Reg} (hr : r.val ≤ x.val) :
    ((Instr.loadRegs x).completed s).getV r = s.readByte (s.i.toNat + r.val) := by
  have hx := x.isLt
  have hlt : r.val < (s.readBytes s.i.toNat (blockLength x)).length := by
    rw [State.readBytes_length]
    exact Nat.lt_succ_of_le hr
  have hle : 0 + (s.readBytes s.i.toNat (blockLength x)).length ≤ 16 := by
    rw [State.readBytes_length, blockLength]
    omega
  rw [Instr.completed, Instr.effect, State.getV_finish, State.getV_setI,
    State.getV_setVs_inside _ s 0 r.val r hle hlt (Nat.zero_add _).symm, State.readBytes_getElem]

/-- Settles O41: the check passes, and byte `k` of the block read goes to `Vk`. -/
theorem registerBlockIsLoaded : Obligations.RegisterBlockIsLoaded := by
  refine ⟨decodesRow_xs (.loadRegs 0) fun _ => rfl, fun x s hi => ?_⟩
  have herr : Instr.errorOn s (.loadRegs x) = none := blockError_of_le (Nat.succ_le_succ hi)
  have hframe := completed_frame (.loadRegs x) s
  exact ⟨_, exec_completes herr, fun k hk => getV_completed_loadRegs hk,
    fun k hk => hframe.regs k fun hmem => Nat.not_le.2 hk (mem_blockRegs.1 hmem), indexPast_toNat hi,
    completed_pc (.loadRegs x) s, hframe.components⟩

/-- Settles O42: the load reads the cells that the store has written, from the same `I`. -/
theorem storeThenLoadRestoresRegisters : Obligations.StoreThenLoadRestoresRegisters := by
  intro x s t u hwf hi hstore hmem hparams hu
  obtain ⟨-, hstores⟩ := registerBlockIsStored
  obtain ⟨-, hloads⟩ := registerBlockIsLoaded
  obtain ⟨t', hstore', hcells, -, -, hti, -⟩ := hstores x s hwf hi
  cases hstore.symm.trans hstore'
  obtain ⟨r, hload, hregs, -, hri, -⟩ := hloads x u (hu ▸ hi)
  refine ⟨r, hload, fun k hk => ?_, BitVec.eq_of_toNat_eq (by rw [hri, hti, hu])⟩
  rw [hregs k hk, hu, State.readByte_congr hmem hparams, hcells k hk]

/-! ### The immediate -/

/-- Settles O36. -/
theorem loadIndexImmediate : Obligations.LoadIndexImmediate :=
  ⟨decodesRow_nnn (.ldI 0) fun _ => rfl, fun nnn s => ⟨_, exec_completes rfl, rfl, completed_pc (.ldI nnn) s,
    (completed_frame (.ldI nnn) s).components⟩⟩

end Sys2Proof.Machine
end

section
/-! PROOFS. The framebuffer (spec 44_display.md): clearing it (R190), drawing a sprite as flips of cells (R191 to R195,
R197) and drawing it again (R198). -/

namespace Sys2Proof

theorem nOf_eq_extractLsb' (w : Word) : nOf w = (w.extractLsb' 0 4).toNat := by
  rw [BitVec.extractLsb'_toNat, nOf, field, pow_zero, Nat.div_one, Nat.shiftRight_zero]

end Sys2Proof

namespace Sys2Proof.Machine

/-- Settles O43: `00E0` checks nothing and replaces the framebuffer by the clear one. -/
theorem clearSetsEveryCellToZero : Obligations.ClearSetsEveryCellToZero :=
  ⟨decodesRow_of_withOperands .cls fun _ => rfl, fun s => ⟨_, exec_completes rfl, cell_clearFramebuffer, rfl,
    completed_pc .cls s, (completed_frame .cls s).components⟩⟩

/-! ### Sets of cells that flip -/

/-- From `p` to `q` exactly the cells of `C` flip, and a collision is noted exactly where one of them was 1. -/
structure FlipsCells (C : Nat → Nat → Prop) (p q : Framebuffer × Bool) : Prop where
  cells : ∀ px py, px < 64 → py < 32 →
    (C px py → Framebuffer.cell q.1 px py = !Framebuffer.cell p.1 px py) ∧
    (¬ C px py → Framebuffer.cell q.1 px py = Framebuffer.cell p.1 px py)
  collision : q.2 = true ↔
    p.2 = true ∨ ∃ px py, px < 64 ∧ py < 32 ∧ C px py ∧ Framebuffer.cell p.1 px py = true

namespace FlipsCells

variable {C D E : Nat → Nat → Prop} {p q r : Framebuffer × Bool}

theorem congr (h : FlipsCells C p q) (hCD : ∀ px py, D px py ↔ C px py) : FlipsCells D p q := by
  have : D = C := funext fun px => funext fun py => propext (hCD px py)
  exact this ▸ h

theorem refl_of_empty (hC : ∀ px py, ¬ C px py) : FlipsCells C p p :=
  ⟨fun px py _ _ => ⟨fun h => absurd h (hC px py), fun _ => rfl⟩, by simp [hC]⟩

/-- Flips of disjoint sets of cells, one after the other: the first flips leave the second set as it was. -/
theorem trans (h : FlipsCells C p q) (h' : FlipsCells D q r) (hE : ∀ px py, E px py ↔ C px py ∨ D px py)
    (hdisj : ∀ px py, C px py → ¬ D px py) : FlipsCells E p r := by
  refine ⟨fun px py hx hy => ?_, ?_⟩
  · obtain ⟨hin, hout⟩ := h.cells px py hx hy
    obtain ⟨hin', hout'⟩ := h'.cells px py hx hy
    rw [hE]
    refine ⟨?_, fun hno => ?_⟩
    · rintro (hC | hD)
      · rw [hout' (hdisj px py hC), hin hC]
      · rw [hin' hD, hout fun hC => hdisj px py hC hD]
    · rw [hout' fun hD => hno (.inr hD), hout fun hC => hno (.inl hC)]
  · have hkept (px py : Nat) (hx : px < 64) (hy : py < 32) (hD : D px py) :
        Framebuffer.cell q.1 px py = Framebuffer.cell p.1 px py :=
      (h.cells px py hx hy).2 fun hC => hdisj px py hC hD
    rw [h'.collision, h.collision, or_assoc]
    refine or_congr_right ⟨?_, ?_⟩
    · rintro (⟨px, py, hx, hy, hC, hcell⟩ | ⟨px, py, hx, hy, hD, hcell⟩)
      · exact ⟨px, py, hx, hy, (hE px py).2 (.inl hC), hcell⟩
      · exact ⟨px, py, hx, hy, (hE px py).2 (.inr hD), hkept px py hx hy hD ▸ hcell⟩
    · rintro ⟨px, py, hx, hy, hEp, hcell⟩
      obtain hC | hD := (hE px py).1 hEp
      · exact .inl ⟨px, py, hx, hy, hC, hcell⟩
      · exact .inr ⟨px, py, hx, hy, hD, (hkept px py hx hy hD).trans hcell⟩

end FlipsCells

/-! ### Pixels, rows and sprites -/

/-- One pixel flips its cell where the sprite bit is set (R191). -/
theorem drawBit_flips (cx cy : Nat) (bit : Bool) (p : Framebuffer × Bool) :
    FlipsCells (fun px py => bit = true ∧ cx % 64 = px ∧ cy % 32 = py) p (drawBit cx cy bit p) := by
  refine ⟨fun px py hx hy => ?_, ?_⟩
  · rw [drawBit_cell, Nat.mod_eq_of_lt hx, Nat.mod_eq_of_lt hy]
    exact ⟨fun h => if_pos h, fun h => if_neg h⟩
  · have hcell : Framebuffer.cell p.1 (cx % 64) (cy % 32) = Framebuffer.cell p.1 cx cy := by
      simp only [Framebuffer.cell, Nat.mod_mod]
    rw [drawBit_collision, Bool.or_eq_true, Bool.and_eq_true]
    refine or_congr_right ⟨fun ⟨hbit, h⟩ => ?_, ?_⟩
    · exact ⟨_, _, Nat.mod_lt _ (by decide), Nat.mod_lt _ (by decide), ⟨hbit, rfl, rfl⟩, hcell.trans h⟩
    · rintro ⟨_, _, -, -, ⟨hbit, rfl, rfl⟩, h⟩
      exact ⟨hbit, hcell.symm.trans h⟩

/-- Sprite bit `c` of a row is bit `7 - c` of the byte (R192). -/
theorem spriteBit_eq_getLsbD (row : Byte) (c : Nat) : spriteBit row c = row.getLsbD (7 - c) := by
  rw [spriteBit, BitVec.getLsbD, Nat.testBit_eq_decide_div_mod_eq]

/-- A set bit of the row, at column `c₀` or right of it, falls on the cell. -/
def RowCovers (cx cy : Nat) (row : Byte) (c₀ px py : Nat) : Prop :=
  ∃ c, c₀ ≤ c ∧ c < 8 ∧ row.getLsbD (7 - c) = true ∧ (cx + c) % 64 = px ∧ cy % 32 = py

/-- The columns from `c₀` on are column `c₀` and those right of it. -/
theorem rowCovers_iff {cx cy : Nat} {row : Byte} {c₀ px py : Nat} (h : c₀ < 8) :
    RowCovers cx cy row c₀ px py ↔
      (spriteBit row c₀ = true ∧ (cx + c₀) % 64 = px ∧ cy % 32 = py) ∨ RowCovers cx cy row (c₀ + 1) px py := by
  rw [spriteBit_eq_getLsbD]
  constructor
  · rintro ⟨c, hle, hc, hcell⟩
    obtain rfl | hlt := Nat.eq_or_lt_of_le hle
    · exact .inl hcell
    · exact .inr ⟨c, hlt, hc, hcell⟩
  · rintro (hcell | ⟨c, hle, hc, hcell⟩)
    · exact ⟨c₀, le_rfl, h, hcell⟩
    · exact ⟨c, Nat.le_of_succ_le hle, hc, hcell⟩

/-- A row flips the cells under its set bits: eight columns in a row are distinct modulo 64. -/
theorem drawRowFrom_flips (cx cy : Nat) (row : Byte) (k : Nat) (hk : k ≤ 8) (p : Framebuffer × Bool) :
    FlipsCells (RowCovers cx cy row (8 - k)) p (drawRowFrom cx cy row k p) := by
  induction k generalizing p with
  | zero => exact .refl_of_empty fun px py ⟨c, hle, hc, _⟩ => absurd hc (Nat.not_lt.2 hle)
  | succ k ih =>
    have hnext : 8 - k = 7 - k + 1 := by omega
    rw [drawRowFrom, show 8 - (k + 1) = 7 - k by omega]
    refine (drawBit_flips _ _ _ p).trans (ih (by omega) _) (fun px py => ?_) ?_
    · rw [hnext, rowCovers_iff (by omega)]
    · rintro px py ⟨-, hx, -⟩ ⟨c, hle, hc, -, hx', -⟩
      omega

/-- A set bit of one of the rows, the first of them at `cy`, falls on the cell. -/
def RowsCover (cx cy : Nat) (rows : List Byte) (px py : Nat) : Prop :=
  ∃ r row, rows[r]? = some row ∧ RowCovers cx (cy + r) row 0 px py

theorem rowsCover_cons {cx cy : Nat} {row : Byte} {rows : List Byte} {px py : Nat} :
    RowsCover cx cy (row :: rows) px py ↔ RowCovers cx cy row 0 px py ∨ RowsCover cx (cy + 1) rows px py := by
  constructor
  · rintro ⟨_ | r, row', hrow, h⟩
    · cases hrow
      exact .inl h
    · exact .inr ⟨r, row', hrow, by rwa [Nat.add_assoc, Nat.add_comm 1]⟩
  · rintro (h | ⟨r, row', hrow, h⟩)
    · exact ⟨0, row, rfl, h⟩
    · exact ⟨r + 1, row', hrow, by rwa [Nat.add_assoc, Nat.add_comm 1] at h⟩

/-- Rows flip the cells under their set bits: up to 32 rows in a column are distinct modulo 32. -/
theorem drawRows_flips (cx cy : Nat) (rows : List Byte) (hl : rows.length ≤ 32) (p : Framebuffer × Bool) :
    FlipsCells (RowsCover cx cy rows) p (drawRows cx cy rows p) := by
  induction rows generalizing cy p with
  | nil => exact .refl_of_empty fun px py ⟨r, row, hrow, _⟩ => nomatch hrow
  | cons row rows ih =>
    rw [List.length_cons] at hl
    refine (drawRowFrom_flips cx cy row 8 le_rfl p).trans (ih (cy + 1) (by omega) _)
      (fun px py => rowsCover_cons) ?_
    rintro px py ⟨_, -, -, -, -, hy⟩ ⟨r, row', hrow, _, -, -, -, -, hy'⟩
    have hr : r < rows.length := (List.getElem?_eq_some_iff.1 hrow).1
    omega

/-- The cells of claims are those under the rows read at `I`. -/
theorem spriteCovers_iff {s : State} {x y : Reg} {n px py : Nat} :
    SpriteCovers s x y n px py ↔
      RowsCover (s.getV x).toNat (s.getV y).toNat (s.readBytes s.i.toNat n) px py := by
  constructor
  · rintro ⟨r, c, hr, hc, hcell⟩
    have hlt : r < (s.readBytes s.i.toNat n).length := by rwa [State.readBytes_length]
    exact ⟨r, _, (List.getElem?_eq_getElem hlt).trans (congrArg some (s.readBytes_getElem _ _ r hlt)), c,
      Nat.zero_le c, hc, hcell⟩
  · rintro ⟨r, row, hrow, c, -, hc, hcell⟩
    obtain ⟨hlt, hget⟩ := List.getElem?_eq_some_iff.1 hrow
    rw [State.readBytes_getElem] at hget
    rw [State.readBytes_length] at hlt
    exact ⟨r, c, hlt, hc, hget ▸ hcell⟩

/-- A sprite of at most 32 rows flips the cells that it covers (R191 to R194). -/
theorem State.drawSprite_flips (s : State) (x y : Reg) {n : Nat} (hn : n ≤ 32) :
    FlipsCells (SpriteCovers s x y n) (s.fb, false) (s.drawSprite x y n) :=
  (drawRows_flips _ _ _ (by rwa [State.readBytes_length]) _).congr fun _ _ => spriteCovers_iff

/-! ### `Dxyn` -/

theorem flagByte_eq_one_iff {b : Bool} : flagByte b = 1 ↔ b = true := by cases b <;> decide

theorem flagByte_eq_zero_or_one (b : Bool) : flagByte b = 0 ∨ flagByte b = 1 := by cases b <;> decide

theorem getV_completed_drw (x y : Reg) (n : Nat) (s : State) :
    ((Instr.drw x y n).completed s).getV 15 = flagByte (s.drawSprite x y n).2 :=
  State.getV_setV_self _ 15 _

/-- A row of format `XYN`. -/
theorem decodesRow_xyn (i : Instr) {f : Reg → Reg → Nat → Instr}
    (hf : ∀ w, i.withOperands w = f (xOf w) (yOf w) (nOf w)) :
    DecodesRow (rowOf i).mask (rowOf i).value fun w => f (bitsX w) (bitsY w) (w.extractLsb' 0 4).toNat :=
  decodesRow_of_withOperands i fun w => by rw [hf, xOf_eq_bitsX, yOf_eq_bitsY, nOf_eq_extractLsb']

/-- Settles O44: the check passes, and VF is the collision of the flips. -/
theorem drawFlipsExactlyTheSpriteCells : Obligations.DrawFlipsExactlyTheSpriteCells := by
  refine ⟨decodesRow_xyn (.drw 0 0 0) fun _ => rfl, fun x y n s hn hi => ?_⟩
  have herr : Instr.errorOn s (.drw x y n) = none := if_neg (by omega)
  have hflips := s.drawSprite_flips x y (hn.trans (by decide))
  have hframe := completed_frame (.drw x y n) s
  have hflag := getV_completed_drw x y n s
  refine ⟨_, exec_completes herr, hflips.cells, ?_, hflag ▸ flagByte_eq_zero_or_one _, rfl, hframe.regs,
    completed_pc (.drw x y n) s, hframe.components⟩
  rw [hflag, flagByte_eq_one_iff, hflips.collision, or_iff_right Bool.false_ne_true]

/-- The cells covered depend on the coordinates, `I` and memory alone. -/
theorem spriteCovers_congr {s t : State} {x y : Reg} (hx : t.getV x = s.getV x) (hy : t.getV y = s.getV y)
    (hi : t.i = s.i) (hm : ∀ a, t.readByte a = s.readByte a) (n px py : Nat) :
    SpriteCovers t x y n px py ↔ SpriteCovers s x y n px py := by
  simp only [SpriteCovers, hx, hy, hi, hm]

/-- Settles O45: both draws flip the same cells, and a covered cell is 1 before the second exactly when it was 0 before
the first. -/
theorem drawingTwiceRestores : Obligations.DrawingTwiceRestores := by
  intro x y n s t hn hi hdraw hx hy
  obtain ⟨-, hdraws⟩ := drawFlipsExactlyTheSpriteCells
  obtain ⟨t', hdraw', hcells, -, -, -, -, -, hframe⟩ := hdraws x y n s hn hi
  cases hdraw.symm.trans hdraw'
  have hti : t.i = s.i := hframe .i (by decide)
  have hcovers := spriteCovers_congr hx hy hti (hframe .mem (by decide)) n
  obtain ⟨u, hu, hcells', hflag, -⟩ := hdraws x y n t hn (hti ▸ hi)
  simp only [hcovers] at hcells' hflag
  refine ⟨u, hu, Framebuffer.ext_cell _ _ fun px py hpx hpy => ?_, hflag.trans ?_⟩
  · obtain ⟨hin, hout⟩ := hcells px py hpx hpy
    obtain ⟨hin', hout'⟩ := hcells' px py hpx hpy
    by_cases hC : SpriteCovers s x y n px py
    · rw [hin' hC, hin hC, Bool.not_not]
    · rw [hout' hC, hout hC]
  · refine exists₂_congr fun px py => and_congr_right fun hpx => and_congr_right fun hpy =>
      and_congr_right fun hC => ?_
    rw [(hcells px py hpx hpy).1 hC, Bool.not_eq_true']

end Sys2Proof.Machine
end

section
/-! PROOFS. The keypad and the timers (spec 45_keypad_timers.md): the key tests (R210, R211), moves between `Vx` and the
timers (R212, R215, R216), the wait for a key (R213) and the key-down edge that ends it (R214). -/

namespace Sys2Proof.Machine

/-! ### Key tests -/

/-- A code up to 0xF passes the check of a key test. -/
theorem keyError_of_code {s : State} {x : Reg} {k : Key} (h : (s.getV x).toNat = k.val) : keyError s x = none :=
  if_neg (by omega)

/-- The key that a code up to 0xF names. -/
theorem keyDown_of_code {s : State} {x : Reg} {k : Key} (h : (s.getV x).toNat = k.val) :
    s.keyDown (Fin.ofNat 16 (s.getV x).toNat) = s.keys[k.val] := by
  rw [h, Fin.ofNat_val_eq_self, State.keyDown]

/-- Settles O46: with a code that names a key the check passes and the skip tests that key, with a larger one the check
fails. -/
theorem skipsOnKey : Obligations.SkipsOnKey := by
  refine ⟨decodesRow_xs (.skp 0) fun _ => rfl, decodesRow_xs (.sknp 0) fun _ => rfl, fun x k s hk => ⟨?_, ?_⟩,
    fun x s hcode => ⟨?_, ?_⟩⟩
  · exact completesWithPc_skipIf (keyError_of_code hk) rfl rfl (by rw [keyDown_of_code hk, beq_iff_eq])
  · exact completesWithPc_skipIf (keyError_of_code hk) rfl rfl (by rw [keyDown_of_code hk, beq_iff_eq])
  · exact exec_of_error (.skp x) s _ (if_pos hcode)
  · exact exec_of_error (.sknp x) s _ (if_pos hcode)

/-! ### Timer moves -/

/-- Settles O47: the three instructions check nothing, the tick counts `DT` down and the output reads `ST`. -/
theorem timerMoves : Obligations.TimerMoves := by
  refine ⟨⟨decodesRow_xs (.ldVxDt 0) fun _ => rfl, decodesRow_xs (.ldDtVx 0) fun _ => rfl,
    decodesRow_xs (.ldStVx 0) fun _ => rfl⟩, fun x s => ⟨completesWithReg_of_putV rfl, ?_, ?_⟩⟩
  · exact ⟨_, exec_completes rfl, rfl, completed_pc (.ldDtVx x) s, (completed_frame (.ldDtVx x) s).components,
      fun p => ⟨_, act_tick _, countDown_toNat _⟩⟩
  · exact ⟨_, exec_completes rfl, rfl, completed_pc (.ldStVx x) s, (completed_frame (.ldStVx x) s).components,
      decide_eq_true_iff⟩

/-! ### The wait for a key -/

/-- Settles O48. -/
theorem keyWaitStarts : Obligations.KeyWaitStarts :=
  ⟨decodesRow_xs (.ldVxKey 0) fun _ => rfl, fun x s => ⟨_, exec_completes rfl, rfl, completed_pc (.ldVxKey x) s,
    (completed_frame (.ldVxKey x) s).components⟩⟩

/-! ### The key-down edge -/

@[simp] theorem Frame.setKey {cs : List Component} {rs : List Reg} {a n : Nat} {s t : State} {k : Key} {b : Bool}
    (hc : .keys ∈ cs) (h : Frame cs rs a n s t) : Frame cs rs a n s (t.setKey k b) :=
  h.update (fun c _ => by cases c <;> simp_all [Component.same]) (fun _ => rfl) fun _ => rfl

theorem State.pressKey_of_waiting {s : State} {x : Reg} (h : s.run = .waiting x) (k : Key) :
    s.pressKey k = ((s.setKey k true).setV x (BitVec.ofNat 8 k.val)).setRun .running := by
  rw [State.pressKey, h]

theorem State.pressKey_of_not_waiting {s : State} (h : ¬ s.Waiting) (k : Key) :
    s.pressKey k = s.setKey k true := by
  rw [State.pressKey]
  split
  · exact absurd ⟨_, ‹_›⟩ h
  · rfl
  · rfl

/-- An edge writes its key in every run state. -/
theorem State.pressKey_keys (s : State) (k : Key) : (s.pressKey k).keys = s.keys.set k.val true := by
  unfold State.pressKey
  split <;> rfl

/-- The code of a key fits a byte (R30). -/
theorem keyCode_toNat (k : Key) : (BitVec.ofNat 8 k.val).toNat = k.val :=
  (BitVec.toNat_ofNat ..).trans (Nat.mod_eq_of_lt (by omega))

theorem act_keyDown_of_down {s : State} {k : Key} (h : s.keys[k.val] = true) (p : Phase) :
    act (.keyDown k) { machine := s, phase := p } = .refused (.keyAlreadyDown k) :=
  congrArg (inPhase p) (if_pos h)

theorem act_keyDown_of_up {s : State} {k : Key} (h : s.keys[k.val] = false) (p : Phase) :
    act (.keyDown k) { machine := s, phase := p } = .next { machine := s.pressKey k, phase := p } :=
  congrArg (inPhase p) (if_neg (Bool.eq_false_iff.1 h))

/-- Settles O49: a key that is down gives no edge; an edge writes its key, and the register and `run` of a wait. -/
theorem keyEdgeResumesAWait : Obligations.KeyEdgeResumesAWait := by
  refine fun k s p => ⟨fun hdown => act_keyDown_of_down hdown p, fun hup => ⟨_, act_keyDown_of_up hup p, ?_,
    fun j hj => ?_, fun x hwait => ?_, fun hwait => ?_⟩⟩
  · simp only [State.pressKey_keys, Vector.getElem_set_self]
  · simp only [State.pressKey_keys, Vector.getElem_set_ne _ _ (Fin.val_ne_of_ne hj.symm)]
  · have hf : Frame [.keys, .v, .run] [x] 0 0 s (s.pressKey k) := by
      rw [State.pressKey_of_waiting hwait]
      exact ((Frame.refl.setKey (by simp)).setV (by simp) (by simp)).setRun (by simp)
    refine ⟨?_, ?_, hf.regs, hf.components⟩
    · rw [State.pressKey_of_waiting hwait, State.setRun_run]
    · rw [State.pressKey_of_waiting hwait, State.getV_setRun, State.getV_setV_self, keyCode_toNat]
  · have hf : Frame [.keys] [] 0 0 s (s.setKey k true) := Frame.refl.setKey (by simp)
    rw [State.pressKey_of_not_waiting hwait]
    exact hf.components

end Sys2Proof.Machine
end

section
/-! PROOFS. Errors of a running step (spec 60_exceptions.md R230 to R232, R238): the listed error of a state, by the
stage at which its step stops, and the two things a running step can do. -/

namespace Sys2Proof.Machine

/-! ### The listed error, by stage -/

theorem stepError_of_fetch_fails {s : State} (hpc : 4095 < s.pc.toNat + 1) :
    s.stepError = some (.addressOutOfRange s.pc.toNat) := if_pos hpc

theorem stepError_of_decode_fails {s : State} (hpc : s.pc.toNat + 1 ≤ 4095) (hd : decode s.word = none) :
    s.stepError = some (.unknownOpcode s.word) := by
  rw [State.stepError, if_neg (Nat.not_lt_of_le hpc), hd]

theorem stepError_of_decodes {s : State} {i : Instr} (hpc : s.pc.toNat + 1 ≤ 4095) (hd : decode s.word = some i) :
    s.stepError = i.errorOn s := by
  rw [State.stepError, if_neg (Nat.not_lt_of_le hpc), hd]

/-! ### What a running step answers -/

/-- Everything a running step can do: record the listed error, or complete an instruction where none is listed. -/
theorem step_of_running {s : State} (hr : s.run = .running) :
    (∃ e, s.stepError = some e ∧ step s = .next (s.setRun (.halted e))) ∨
    (∃ i : Instr, s.stepError = none ∧ i.errorOn s = none ∧ step s = .next (i.completed s)) := by
  obtain (⟨x, hw⟩ | ⟨e, hh⟩) | ⟨-, hpc⟩ | ⟨-, hpc, hd⟩ | ⟨i, -, hpc, hd⟩ := s.stage_cases
  · cases hr.symm.trans hw
  · cases hr.symm.trans hh
  · exact .inl ⟨_, stepError_of_fetch_fails hpc, step_of_fetch_fails hr hpc⟩
  · exact .inl ⟨_, stepError_of_decode_fails hpc hd, step_of_decode_fails hr hpc hd⟩
  · rw [stepError_of_decodes hpc hd, step_eq_exec hr hpc hd]
    cases he : i.errorOn s with
    | some e => exact .inl ⟨e, rfl, exec_of_error i s e he⟩
    | none => exact .inr ⟨i, rfl, he, exec_completes he⟩

/-- A completed instruction leaves a running engine running or, after `Fx0A`, waiting (R231). -/
theorem completed_not_halted {i : Instr} {s : State} (hr : s.run = .running) (he : i.errorOn s = none) :
    ¬ (i.completed s).Halted := by
  rintro ⟨e, hh⟩
  obtain ⟨t, ht, hrun⟩ := exec_of_noError i s he
  cases (exec_completes he).symm.trans ht
  obtain hsame | ⟨x, -, hwait⟩ := hrun
  · cases hh.symm.trans (hsame.trans hr)
  · cases hh.symm.trans hwait

/-- Settles O13: a running step records the listed error, and where none is listed it completes an instruction. -/
theorem stepRaisesExactlyTheListedErrors : Obligations.StepRaisesExactlyTheListedErrors := by
  intro s hr
  obtain ⟨e, hlisted, hstep⟩ | ⟨i, hlisted, he, hstep⟩ := step_of_running hr
  · refine ⟨fun e' he' => ?_, fun hnone => ?_⟩
    · cases hlisted.symm.trans he'
      exact hstep
    · cases hlisted.symm.trans hnone
  · refine ⟨fun e' he' => ?_, fun _ => ⟨_, hstep, completed_not_halted hr he⟩⟩
    cases hlisted.symm.trans he'

/-- Settles O14: a step that halts has recorded an error, since a completed instruction does not halt. -/
theorem errorsArePrecise : Obligations.ErrorsArePrecise := by
  intro s t hr hstep hhalted
  obtain rfl | ⟨e, rfl⟩ | ⟨i, -, -, -, he, rfl⟩ := step_cases hstep
  · rfl
  · rfl
  · exact absurd hhalted (completed_not_halted hr he)

end Sys2Proof.Machine
end

section
/-! PROOFS. The agents beside the engine (spec 60_exceptions.md): the timer clock (R240), the renderer (R251), the
key-up action (R252), and what every action does while the engine waits or has halted (R234, R235, R242, R261). -/

namespace Sys2Proof.Machine

/-! ### The timer clock -/

@[simp] theorem Frame.tick {cs : List Component} {rs : List Reg} {a n : Nat} {s t : State} (hd : .dt ∈ cs)
    (hs : .st ∈ cs) (h : Frame cs rs a n s t) : Frame cs rs a n s t.tick :=
  h.update (fun c _ => by cases c <;> simp_all [Component.same]) (fun _ => rfl) fun _ => rfl

theorem tick_frame (s : State) : Frame [.dt, .st] [] 0 0 s s.tick := Frame.refl.tick (by simp) (by simp)

/-- A run of ticks alone takes one from each timer at each tick. -/
theorem runActions_ticks (n : Nat) (s : State) (p : Phase) : ∃ t,
    runActions (List.replicate n .tick) { machine := s, phase := p } = .next { machine := t, phase := p } ∧
    t.dt.toNat = s.dt.toNat - n ∧ t.st.toNat = s.st.toNat - n ∧ Frame [.dt, .st] [] 0 0 s t := by
  induction n generalizing s with
  | zero => exact ⟨s, rfl, rfl, rfl, Frame.refl⟩
  | succ n ih =>
    obtain ⟨t, hrun, hdt, hst, hframe⟩ := ih s.tick
    refine ⟨t, runActions_cons_eq_next.2 ⟨_, act_tick _, hrun⟩, ?_, ?_, (tick_frame s).trans hframe⟩
    · rw [hdt, State.tick_dt, countDown_toNat]
      omega
    · rw [hst, State.tick_st, countDown_toNat]
      omega

/-- Settles O51: a tick counts each timer down, and `n` ticks do so by induction. -/
theorem ticksCountTimersDown : Obligations.TicksCountTimersDown := by
  refine ⟨fun s p => ⟨s.tick, rfl, ?_, ?_, (tick_frame s).components⟩, fun n s p => ?_⟩
  · rw [State.tick_dt, countDown_toNat]
    split <;> omega
  · rw [State.tick_st, countDown_toNat]
    split <;> omega
  · obtain ⟨t, hrun, hdt, hst, hframe⟩ := runActions_ticks n s p
    exact ⟨t, hrun, hdt, hst, hframe.components⟩

/-! ### The renderer -/

@[simp] theorem Frame.acknowledge {cs : List Component} {rs : List Reg} {a n : Nat} {s t : State}
    (hc : .redraw ∈ cs) (h : Frame cs rs a n s t) : Frame cs rs a n s t.acknowledge :=
  h.update (fun c _ => by cases c <;> simp_all [Component.same]) (fun _ => rfl) fun _ => rfl

theorem acknowledge_frame (s : State) : Frame [.redraw] [] 0 0 s s.acknowledge := Frame.refl.acknowledge (by simp)

theorem act_consume_of_clear {s : State} (h : s.redraw = false) (p : Phase) :
    act .consume { machine := s, phase := p } = .refused .nothingToRedraw :=
  congrArg (inPhase p) (if_neg (Bool.eq_false_iff.1 h))

theorem act_consume_of_set {s : State} (h : s.redraw = true) (p : Phase) :
    act .consume { machine := s, phase := p } = .next { machine := s.acknowledge, phase := p } :=
  congrArg (inPhase p) (if_pos h)

theorem State.frame_length (s : State) : s.frame.length = 2048 := by
  rw [State.frame, List.length_map, List.length_range]

/-- The frame is row-major: cell (px, py) stands at `py * 64 + px` (R29, R251). -/
theorem State.frame_getElem? (s : State) {px py : Nat} (hx : px < 64) (hy : py < 32) :
    s.frame[py * 64 + px]? = some (Framebuffer.cell s.fb px py) := by
  have hcol : (py * 64 + px) % 64 = px := by omega
  have hrow : (py * 64 + px) / 64 = py := by omega
  rw [State.frame, List.getElem?_map, List.getElem?_range (by omega), Option.map_some, hcol, hrow]

/-- Settles O55. -/
theorem consumeClearsRedraw : Obligations.ConsumeClearsRedraw := fun s p =>
  ⟨fun hclear => act_consume_of_clear hclear p,
    fun hset => ⟨_, act_consume_of_set hset p, rfl, (acknowledge_frame s).components⟩,
    s.frame_length, fun _ _ => s.frame_getElem?⟩

/-! ### The key-up action -/

theorem setKey_frame (s : State) (k : Key) (b : Bool) : Frame [.keys] [] 0 0 s (s.setKey k b) :=
  Frame.refl.setKey (by simp)

theorem act_keyUp_of_up {s : State} {k : Key} (h : s.keys[k.val] = false) (p : Phase) :
    act (.keyUp k) { machine := s, phase := p } = .refused (.keyAlreadyUp k) :=
  congrArg (inPhase p) (if_neg (Bool.eq_false_iff.1 h))

theorem act_keyUp_of_down {s : State} {k : Key} (h : s.keys[k.val] = true) (p : Phase) :
    act (.keyUp k) { machine := s, phase := p } = .next { machine := s.setKey k false, phase := p } :=
  congrArg (inPhase p) (if_pos h)

/-- Settles O50. -/
theorem keyUpReleasesOneKey : Obligations.KeyUpReleasesOneKey := by
  refine fun k s p => ⟨fun hup => act_keyUp_of_up hup p, fun hdown => ⟨_, act_keyUp_of_down hdown p, ?_,
    fun j hj => ?_, (setKey_frame s k false).components⟩⟩
  · rw [State.setKey_keys, Vector.getElem_set_self]
  · rw [State.setKey_keys, Vector.getElem_set_ne _ _ (Fin.val_ne_of_ne hj.symm)]

/-! ### While the engine waits or has halted -/

/-- Before the first step after a reset the engine runs, so one that waits or has halted is in a started session. -/
theorem Session.Inv.started_of_idle {c : Session} (hc : c.Inv) (hidle : c.machine.Waiting ∨ c.machine.Halted) :
    c.phase = .started := by
  have hrun : c.machine.run ≠ .running := by
    obtain ⟨x, hw⟩ | ⟨e, hh⟩ := hidle
    · simp [hw]
    · simp [hh]
  cases hp : c.phase with
  | fresh => exact absurd (congrArg (·.run) (hc.fresh hp)) hrun
  | loaded => exact absurd (congrArg (·.run) (hc.loaded hp).1) hrun
  | started => rfl

/-- While the engine waits or has halted a step changes nothing, not even the phase (R100). -/
theorem act_step_of_idle {c : Session} (hc : c.Inv) (hidle : c.machine.Waiting ∨ c.machine.Halted) :
    act .step c = .next c := by
  rw [act_step, idleStepsChangeNothing _ hidle, inPhase_next, ← hc.started_of_idle hidle]

/-- Everything an action can do while the engine waits or has halted: but for a reset and a key-down edge it changes
timers, keys and `redraw` alone. -/
theorem act_of_idle {a : Action} {c d : Session} (hc : c.Inv) (hidle : c.machine.Waiting ∨ c.machine.Halted)
    (h : act a c = .next d) :
    a = .reset ∨ (∃ k, a = .keyDown k ∧ c.machine.keys[k.val] = false) ∨
      Frame [.dt, .st, .keys, .redraw] [] 0 0 c.machine d.machine := by
  obtain ⟨rfl, -, -⟩ | ⟨-, rfl⟩ | ⟨k, rfl, hup, -⟩ | ⟨k, -, -, rfl⟩ | ⟨-, -, rfl⟩ | ⟨rfl, -⟩ |
    ⟨rom, -, hf, -, -⟩ := act_cases h
  · cases (act_step_of_idle hc hidle).symm.trans h
    exact .inr (.inr Frame.refl)
  · exact .inr (.inr ((tick_frame c.machine).mono (by simp)))
  · exact .inr (.inl ⟨k, rfl, hup⟩)
  · exact .inr (.inr ((setKey_frame c.machine k false).mono (by simp)))
  · exact .inr (.inr ((acknowledge_frame c.machine).mono (by simp)))
  · exact .inl rfl
  · cases hf.symm.trans (hc.started_of_idle hidle)

theorem ChangesOnly.mono {cs ds : List Component} {s t : State} (h : ChangesOnly cs s t)
    (hsub : ∀ c ∈ cs, c ∈ ds) : ChangesOnly ds s t :=
  fun c hc => h c fun hm => hc (hsub c hm)

/-- Settles O53: the edge that ends the wait is the only action but a reset that changes more than timers, keys and
`redraw`. -/
theorem waitEndsOnlyByKeyOrReset : Obligations.WaitEndsOnlyByKeyOrReset := by
  refine fun c x hc hx => ⟨fun a d h => ?_, act_step_of_idle hc (.inl ⟨x, hx⟩),
    ⟨_, act_tick c, countDown_toNat _, countDown_toNat _, (tick_frame c.machine).components⟩,
    fun hset => ⟨_, act_consume_of_set hset c.phase, (acknowledge_frame c.machine).components⟩⟩
  obtain rfl | ⟨k, rfl, hup⟩ | hframe := act_of_idle hc (.inl ⟨x, hx⟩) h
  · exact ⟨.inr (.inl rfl), fun hne => absurd rfl hne⟩
  · obtain ⟨-, hedge⟩ := keyEdgeResumesAWait k c.machine c.phase
    obtain ⟨t, ht, -, -, hwait, -⟩ := hedge hup
    cases ht.symm.trans h
    obtain ⟨-, -, hregs, hcomponents⟩ := hwait x hx
    exact ⟨.inl ⟨k, rfl⟩, fun _ => ⟨hcomponents.mono (by simp), hregs⟩⟩
  · have hrun : d.machine.run = c.machine.run := hframe.components .run (by simp)
    exact ⟨.inr (.inr (hrun.trans hx)), fun _ =>
      ⟨hframe.components.mono (by simp), fun r _ => hframe.regs r List.not_mem_nil⟩⟩

/-- Settles O54: a key-down edge with no wait to end writes its key alone. -/
theorem haltEndsOnlyByReset : Obligations.HaltEndsOnlyByReset := by
  intro a c d e hc he h
  obtain hreset | ⟨k, rfl, hup⟩ | hframe := act_of_idle hc (.inr ⟨e, he⟩) h
  · exact .inl hreset
  · obtain ⟨-, hedge⟩ := keyEdgeResumesAWait k c.machine c.phase
    obtain ⟨t, ht, -, -, -, hother⟩ := hedge hup
    cases ht.symm.trans h
    have hkeys := hother fun ⟨x, hx⟩ => RunState.noConfusion (hx.symm.trans he)
    exact .inr ⟨(hkeys .run (by simp)).trans he, hkeys.mono (by simp)⟩
  · exact .inr ⟨(hframe.components .run (by simp)).trans he, hframe.components⟩

end Sys2Proof.Machine
end

section
/-! PROOFS. The ROM load (spec 70_reset_and_hazards.md): what it writes (R273), the phases of a session in which it has
a move (R274, R275), and a step with nothing loaded (R272). -/

namespace Sys2Proof.Machine

/-! ### What the loader does -/

/-- Settles O58: within the limit the ROM's block ends in memory, so byte `i` is read back from its cell. -/
theorem romLoadCopiesTheRom : Obligations.RomLoadCopiesTheRom := by
  refine fun s rom hwf => ⟨fun hle => ?_, fun hgt => if_pos hgt⟩
  have hframe : Frame [.mem] [] 0x200 rom.length s (s.writeBytes 0x200 rom) :=
    Frame.refl.writeBytes (by simp) (Nat.le_refl _)
  exact ⟨_, State.loadRom_eq_next.2 ⟨hle, rfl⟩,
    fun k hk => State.readByte_writeBytes_inside rom s 0x200 k (Nat.add_le_add_left hle 0x200) hk hwf,
    hframe.cells, hframe.components⟩

/-! ### The phases of a session -/

/-- Everything an action can do to the phase. -/
theorem act_phase_cases {a : Action} {c d : Session} (h : act a c = .next d) :
    (a = .step ∧ d.phase = .started) ∨
    (a = .reset ∧ d.phase = .fresh) ∨
    (∃ rom, a = .load rom ∧ c.phase = .fresh ∧ d.phase = .loaded) ∨
    ((a ≠ .step ∧ a ≠ .reset ∧ ∀ rom, a ≠ .load rom) ∧ d.phase = c.phase) := by
  obtain ⟨rfl, -, hp⟩ | ⟨rfl, rfl⟩ | ⟨k, rfl, -, rfl⟩ | ⟨k, rfl, -, rfl⟩ | ⟨rfl, -, rfl⟩ | ⟨rfl, rfl⟩ |
    ⟨rom, rfl, hf, -, rfl⟩ := act_cases h
  · exact .inl ⟨rfl, hp⟩
  · exact .inr (.inr (.inr ⟨by simp, rfl⟩))
  · exact .inr (.inr (.inr ⟨by simp, rfl⟩))
  · exact .inr (.inr (.inr ⟨by simp, rfl⟩))
  · exact .inr (.inr (.inr ⟨by simp, rfl⟩))
  · exact .inr (.inl ⟨rfl, rfl⟩)
  · exact .inr (.inr (.inl ⟨rom, rfl, hf, rfl⟩))

/-- A session is fresh after a reset, or if it was and neither a step nor a load was made. -/
theorem act_fresh_iff {a : Action} {c d : Session} (h : act a c = .next d) :
    d.phase = .fresh ↔ a = .reset ∨ (c.phase = .fresh ∧ a ≠ .step ∧ ∀ rom, a ≠ .load rom) := by
  obtain ⟨rfl, hd⟩ | ⟨rfl, hd⟩ | ⟨rom, rfl, -, hd⟩ | ⟨⟨hs, hr, hl⟩, hd⟩ := act_phase_cases h
  · simp [hd]
  · simp [hd]
  · simp [hd]
  · simp [hd, hs, hr, hl]

/-- A session is started after a step, or if it was and no reset was made. -/
theorem act_started_iff {a : Action} {c d : Session} (h : act a c = .next d) :
    d.phase = .started ↔ a = .step ∨ (c.phase = .started ∧ a ≠ .reset) := by
  obtain ⟨rfl, hd⟩ | ⟨rfl, hd⟩ | ⟨rom, rfl, hc, hd⟩ | ⟨⟨hs, hr, -⟩, hd⟩ := act_phase_cases h
  · simp [hd]
  · simp [hd]
  · simp [hd, hc]
  · simp [hd, hs, hr]

/-- A run that leads from a session that is not fresh to a fresh one contains a reset. -/
theorem reset_mem_of_runActions_fresh {actions : List Action} {c d : Session} (h : runActions actions c = .next d)
    (hc : c.phase ≠ .fresh) (hd : d.phase = .fresh) : .reset ∈ actions := by
  induction actions generalizing c with
  | nil => cases h; exact absurd hd hc
  | cons a rest ih =>
    obtain ⟨c', ha, hrest⟩ := runActions_cons_eq_next.1 h
    by_cases hc' : c'.phase = .fresh
    · obtain rfl | ⟨hf, -⟩ := (act_fresh_iff ha).1 hc'
      · exact List.mem_cons_self
      · exact absurd hf hc
    · exact List.mem_cons_of_mem a (ih hrest hc')

/-- A session in which a load goes on was fresh. -/
theorem fresh_of_act_load {rom : List Byte} {c d : Session} (h : act (.load rom) c = .next d) : c.phase = .fresh := by
  by_contra hc
  cases h.symm.trans (Session.load_refused hc rom)

/-- Settles O59: a step or a load leaves the session not fresh, and a load needs a fresh one, so the run between has a
reset. -/
theorem romLoadOnlyAtBoot : Obligations.RomLoadOnlyAtBoot := by
  refine ⟨fun _ _ _ h => congrArg (inPhase .loaded) h, fun _ _ h => congrArg (inPhase .loaded) h,
    fun _ rom hc => Session.load_refused hc rom, fun _ _ _ h => ⟨act_fresh_iff h, act_started_iff h⟩,
    fun before between first rom c d hfirst hrun => ?_⟩
  obtain ⟨atLoad, hrun, hload⟩ := runActions_append_eq_next.1 hrun
  obtain ⟨atFirst, -, hrun⟩ := runActions_append_eq_next.1 hrun
  obtain ⟨afterFirst, hact, hbetween⟩ := runActions_cons_eq_next.1 hrun
  obtain ⟨atEnd, hload, -⟩ := runActions_cons_eq_next.1 hload
  have hafter : afterFirst.phase ≠ .fresh := by
    rw [ne_eq, act_fresh_iff hact]
    obtain rfl | ⟨earlier, rfl⟩ := hfirst
    · simp
    · simp
  exact reset_mem_of_runActions_fresh hbetween hafter (fresh_of_act_load hload)

/-! ### A step with nothing loaded -/

/-- From 0x050 on every cell is 0 after a reset (R39). -/
theorem readByte_resetWith_of_le (p : Params) (e : Entropy) {a : Nat} (ha : 80 ≤ a) :
    (State.resetWith p e).readByte a = 0 := by
  rw [readByte_resetWith, unlistedByte, dif_neg (Nat.not_lt.2 ha)]

/-- The word at `pc` after a reset is 0x0000, with every font (R272). -/
theorem word_resetWith (p : Params) (e : Entropy) : (State.resetWith p e).word = 0x0000 := by
  have hpc : (State.resetWith p e).pc.toNat = 0x200 := rfl
  rw [State.word, hpc, readByte_resetWith_of_le p e (by decide), readByte_resetWith_of_le p e (by decide)]
  rfl

/-- Settles O57: the fetch succeeds, and 0x0000 is no instruction. -/
theorem stepAfterBareResetHalts : Obligations.StepAfterBareResetHalts := by
  have hword : State.reset.word = 0x0000 := word_resetWith _ _
  have hdecode : decode State.reset.word = none := by rw [hword]; rfl
  have hstep := step_of_decode_fails (s := State.reset) rfl (by decide) hdecode
  rw [hword] at hstep
  exact hstep

end Sys2Proof.Machine
end
